-- ==== Sys2Proof/Word.lean ====
section
/-! DEFINITION. The bit vectors of the block: the host's 32-bit word, the 128-bit operand and result
value, the 5-bit length tag and the 8-bit field (spec/00_scope.md R8, spec/10_state.md R20). -/

namespace Sys2Proof

/-- A word of the host port, and a command word (20_memory.md R60, 30_encoding.md R90). -/
abbrev Word := BitVec 32

/-- The contents of a value register: A, B, R0, R1 or an entry's ADDR (10_state.md R20). -/
abbrev Value := BitVec 128

/-- A byte-length tag: LEN_A, LEN_B or RLEN (10_state.md R20, R26). -/
abbrev Len := BitVec 5

/-- An 8-bit field: RNUM or an entry's BITS (10_state.md R20). -/
abbrev Byte := BitVec 8

end Sys2Proof
end

