-- ==== Sys2Proof/Config.lean ====
section
/-! DEFINITION. What the spec fixes for every instance of the block, and what it leaves open: the open
parameter BASE and the free values, opaque constants of which nothing can be proved
(spec/00_scope.md R8, R19; spec/93_implementation_defined.md). LATENCY, the other open parameter, is
plain data of a run and no constant: log entry 3. -/

namespace Sys2Proof.Config

/-- The constant the ID register reads as (10_state.md R36). -/
def idWord : Word := 0x54430007#32

/-- NOUT, the depth of the output buffer (00_scope.md R8, 10_state.md R35). -/
abbrev outDepth : Nat := 256

/-- The size in bytes of the host register window (20_memory.md R62). -/
def windowSize : Nat := 0x4000

/-- Which 16 KiB frame of the system's addresses the window occupies: OPEN (R8, D22). Log entry 7. -/
opaque baseFrame : Nat

/-- BASE, the system address of offset 0: any 16 KiB-aligned address (00_scope.md R8, D22). -/
def base : Nat := windowSize * baseFrame

/-- The unspecified word a read returns at the `n`-th draw of a run: a result read while busy
(20_memory.md R72) or any read while `rst_n` is low (70_reset_and_hazards.md R260). Log entry 1. -/
opaque freeWord : (n : Nat) → Word

/-- The unspecified ADDR of output-buffer entry `i` after the hardware reset that is draw `n`
(70_reset_and_hazards.md R262). Log entry 2. -/
opaque launchAddr : (n i : Nat) → Value

/-- The unspecified BITS of output-buffer entry `i` after the hardware reset that is draw `n`
(70_reset_and_hazards.md R262). Log entry 2. -/
opaque launchBits : (n i : Nat) → Byte

end Sys2Proof.Config
end

