-- ==== Sys2Proof/Syntax.lean ====
section
/-! DEFINITION. The twelve commands of the engine (spec/30_encoding.md R92, spec/opcode_table.json),
one constructor each, and the reasons a command word is illegal (R93). -/

namespace Sys2Proof

/-- A legal command: its operation, and PLEN, the integer in bits 15:8 of its word (R90, R91). The
eight commands marked "ignored" in R92 carry the field too, so that the word can be read back from
the command; their meanings never look at it (R94; log entry 14). -/
inductive Instr where
  /-- 0x01 CMP (41_address.md R130); PLEN ignored. -/
  | cmp (plen : Nat)
  /-- 0x02 MASK2PLEN (42_mask.md R140); PLEN ignored. -/
  | mask2plen (plen : Nat)
  /-- 0x03 PLEN2MASK (42_mask.md R143). -/
  | plen2mask (plen : Nat)
  /-- 0x04 ADDRMASK2PREFIX (42_mask.md R146); PLEN ignored. -/
  | addrmask2prefix (plen : Nat)
  /-- 0x05 EXPAND (43_expand.md R160). -/
  | expand (plen : Nat)
  /-- 0x06 NETMASK (43_expand.md R163). -/
  | netmask (plen : Nat)
  /-- 0x07 CANON (43_expand.md R166). -/
  | canon (plen : Nat)
  /-- 0x08 DECOMPOSE (44_decompose.md R180); PLEN ignored. -/
  | decompose (plen : Nat)
  /-- 0x09 ALIGN_END (44_decompose.md R195); PLEN ignored. -/
  | alignEnd (plen : Nat)
  /-- 0x0A ALIGN_START (44_decompose.md R198); PLEN ignored. -/
  | alignStart (plen : Nat)
  /-- 0x0B STEP_DOWN (44_decompose.md R201); PLEN ignored. -/
  | stepDown (plen : Nat)
  /-- 0x0C STEP_UP (44_decompose.md R205); PLEN ignored. -/
  | stepUp (plen : Nat)
  deriving DecidableEq, Repr

/-- Why a command word is illegal (30_encoding.md R93). -/
inductive IllegalWord where
  /-- CMD[31:16] is not 0. -/
  | reservedBits
  /-- OPC is 0x00. -/
  | zeroOpcode
  /-- OPC is one of 0x0D..0xFF. -/
  | unassignedOpcode
  deriving DecidableEq, Repr

end Sys2Proof
end

