-- ==== Sys2Proof/WellFormed.lean ====
section
/-! DEFINITION. Which terms of `Instr` have a command word: PLEN fits its eight bits
(spec/30_encoding.md R90, R91). -/

namespace Sys2Proof

/-- The PLEN field of a command (30_encoding.md R91). -/
def Instr.plen : Instr → Nat
  | .cmp p | .mask2plen p | .plen2mask p | .addrmask2prefix p | .expand p | .netmask p
  | .canon p | .decompose p | .alignEnd p | .alignStart p | .stepDown p | .stepUp p => p

/-- A command has a word exactly when its PLEN is "an integer in 0..255" (30_encoding.md R91). -/
def WellFormed (i : Instr) : Bool := decide (i.plen < 256)

end Sys2Proof
end

