-- ==== Sys2Proof/Decode.lean ====
section
/-! DEFINITION. The decoder, total over the 2^32 command words and rejecting by name
(spec/30_encoding.md R93, R96), and the encoder written from the same format (R90, R92, R97). -/

namespace Sys2Proof

/-- OPC, bits 7:0 of a command word (30_encoding.md R90). -/
def opcField (w : Word) : BitVec 8 := w.extractLsb' 0 8

/-- PLEN, bits 15:8, zero-extended to an integer (30_encoding.md R90, R91). -/
def plenField (w : Word) : Nat := (w.extractLsb' 8 8).toNat

/-- RSVD, bits 31:16 (30_encoding.md R90). -/
def rsvdField (w : Word) : BitVec 16 := w.extractLsb' 16 16

/-- The decoder of 30_encoding.md R96; an illegal word is rejected with the clause of R93 it falls
under. -/
def decode (w : Word) : Except IllegalWord Instr :=
  if rsvdField w ≠ 0#16 then .error .reservedBits
  else
    match (opcField w).toNat with
    | 0x00 => .error .zeroOpcode
    | 0x01 => .ok (.cmp (plenField w))
    | 0x02 => .ok (.mask2plen (plenField w))
    | 0x03 => .ok (.plen2mask (plenField w))
    | 0x04 => .ok (.addrmask2prefix (plenField w))
    | 0x05 => .ok (.expand (plenField w))
    | 0x06 => .ok (.netmask (plenField w))
    | 0x07 => .ok (.canon (plenField w))
    | 0x08 => .ok (.decompose (plenField w))
    | 0x09 => .ok (.alignEnd (plenField w))
    | 0x0A => .ok (.alignStart (plenField w))
    | 0x0B => .ok (.stepDown (plenField w))
    | 0x0C => .ok (.stepUp (plenField w))
    | _ => .error .unassignedOpcode

/-- The operation code of a command (30_encoding.md R92). -/
def opcode : Instr → BitVec 8
  | .cmp _ => 0x01#8
  | .mask2plen _ => 0x02#8
  | .plen2mask _ => 0x03#8
  | .addrmask2prefix _ => 0x04#8
  | .expand _ => 0x05#8
  | .netmask _ => 0x06#8
  | .canon _ => 0x07#8
  | .decompose _ => 0x08#8
  | .alignEnd _ => 0x09#8
  | .alignStart _ => 0x0A#8
  | .stepDown _ => 0x0B#8
  | .stepUp _ => 0x0C#8

/-- The command word `(p << 8) | OPC` of a well-formed command (30_encoding.md R90, R97). -/
def encode (i : Instr) : Word := 0#16 ++ BitVec.ofNat 8 i.plen ++ opcode i

/-- The command word whose low `nbits` bits are those of `w` and whose other bits are 0. -/
def tableWord (nbits w : Nat) : Word := BitVec.ofNat 32 (w % 2 ^ nbits)

/-- The command the decoder reads from a row's bits. A command is one 32-bit word written whole to
CMD (30_encoding.md R90), so the word's bits are the table's bits, in the table's numbering. -/
def decodeTableWord (nbits w : Nat) : Option Instr :=
  match decode (tableWord nbits w) with
  | .ok i => some i
  | .error _ => none

end Sys2Proof
end

