-- ==== Sys2Proof/Machine/State.lean ====
section
/-! DEFINITION. The state: R20's record (`Block`), the signals and the agenda of the block's
environment (`State`), the error kinds, the reasons a step can stop, and the state after reset
(spec/10_state.md R20, spec/20_memory.md R60 and R61, spec/60_exceptions.md R220,
spec/70_reset_and_hazards.md R260 and R262). -/

namespace Sys2Proof.Machine

/-- One entry of the output buffer: the CIDR prefix ADDR/BITS (10_state.md R20, R35). -/
structure OutEntry where
  addr : Value
  bits : Byte
  deriving DecidableEq, Repr

/-- PENDING when a command is in flight: the command word and the operands latched at acceptance
(10_state.md R38, 40_command.md R111). -/
structure Pending where
  word : Word
  a : Value
  lenA : Len
  b : Value
  lenB : Len
  deriving DecidableEq, Repr

/-- The state of the block: exactly the fields of 10_state.md R20. -/
structure Block where
  /-- A, operand A. -/
  a : Value
  /-- LEN_A. -/
  lenA : Len
  /-- B, operand B. -/
  b : Value
  /-- LEN_B. -/
  lenB : Len
  /-- CMD, the last accepted command word (R30). -/
  cmd : Word
  /-- CTRL.IRQ_EN (R29). -/
  irqEn : Bool
  /-- STATUS.BUSY (R28). -/
  busy : Bool
  /-- STATUS.DONE (R28). -/
  done : Bool
  /-- STATUS.ERR (R28). -/
  err : Bool
  /-- STATUS.ERRCODE (R28). -/
  errCode : BitVec 4
  /-- STATUS.HOSTERR (R28). -/
  hostErr : Bool
  /-- R0 (R31). -/
  r0 : Value
  /-- R1 (R31). -/
  r1 : Value
  /-- R_INFO.RNUM (R32). -/
  rNum : Byte
  /-- R_INFO.RLEN (R32). -/
  rLen : Len
  /-- R_INFO.CMP_LT (R33). -/
  cmpLt : Bool
  /-- R_INFO.CMP_EQ (R33). -/
  cmpEq : Bool
  /-- R_INFO.CMP_GT (R33). -/
  cmpGt : Bool
  /-- COUNT (R34). -/
  count : BitVec 9
  /-- OUT[0..255] (R35). -/
  out : Vector OutEntry Config.outDepth
  /-- PENDING (R38). -/
  pending : Option Pending
  deriving DecidableEq, Repr

/-- One transaction at the host port: the input signals of 20_memory.md R61. -/
structure BusTxn where
  /-- The transaction is addressed to this block. -/
  sel : Bool
  /-- Write (true) or read (false). -/
  we : Bool
  /-- Byte offset from BASE. -/
  off : BitVec 14
  /-- Byte enables. -/
  be : BitVec 4
  /-- Write data. -/
  wdata : Word
  deriving DecidableEq, Repr

/-- What moves next: the engine, a host transaction, or the reset pin. All of them stand in one total
order (20_memory.md R60, R73; 70_reset_and_hazards.md R264; log entry 3). -/
inductive Event where
  /-- The engine agent takes its step, if it is enabled (40_command.md R112). -/
  | engineTurn
  /-- A transaction at the host port (20_memory.md R60). -/
  | port (t : BusTxn)
  /-- A transaction at a system address, which the system decodes against BASE (20_memory.md R62). -/
  | system (addr : Nat) (we : Bool) (be : BitVec 4) (wdata : Word)
  /-- `rst_n` goes (or stays) low (70_reset_and_hazards.md R260). -/
  | resetLow
  /-- `rst_n` goes (or stays) high (70_reset_and_hazards.md R260). -/
  | resetHigh
  deriving DecidableEq, Repr

/-- The error kinds a command can raise (60_exceptions.md R220). -/
inductive ErrorKind where
  | invalidAddress
  | familyMismatch
  | invalidRange
  | nonCanonicalMask
  | addressConversionError
  | illegalCommand
  | invalidPrefixLength
  deriving DecidableEq, Repr

/-- Why a step faults. -/
inductive Fault where
  /-- A command raised AddressConversionError, which "a model should treat ... as a *fault* of the
  model" (60_exceptions.md R225, 93 I5). Raised by `State.complete` alone. Safe: no input reaches it
  (40_command.md R121), and a fault refutes every claim that would. Log entry 5. -/
  | addressConversionError
  deriving DecidableEq, Repr

/-- Why a step is refused. -/
inductive Refusal where
  /-- The command of that mnemonic has no meaning yet; raised by `exec`'s arms alone, safe. No arm
  raises it: every command of the opcode table has its meaning. -/
  | notModelled (mnemonic : String)
  deriving DecidableEq, Repr

/-- The block and its environment. -/
structure State where
  /-- The block's own record (10_state.md R20). -/
  blk : Block
  /-- The level of the reset pin `rst_n` (20_memory.md R61). -/
  rstN : Bool
  /-- What moves next, oldest first (log entry 3). -/
  agenda : List Event
  /-- The words reads have returned on `rdata`, newest first (20_memory.md R60, R61; log entry 4). -/
  returned : List Word
  /-- How many free values have been drawn (log entries 1, 2 and 4). -/
  draws : Nat
  deriving DecidableEq, Repr

/-- The contents OUT takes at the hardware reset that is draw `n`: unspecified
(70_reset_and_hazards.md R262). -/
def launchOut (n : Nat) : Vector OutEntry Config.outDepth :=
  Vector.ofFn fun i => { addr := Config.launchAddr n i, bits := Config.launchBits n i }

/-- Every reset value of 70_reset_and_hazards.md R260, with `out` as the contents of OUT. -/
def Block.atReset (out : Vector OutEntry Config.outDepth) : Block where
  a := 0
  lenA := 0
  b := 0
  lenB := 0
  cmd := 0
  irqEn := false
  busy := false
  done := false
  err := false
  errCode := 0
  hostErr := false
  r0 := 0
  r1 := 0
  rNum := 0
  rLen := 0
  cmpLt := false
  cmpEq := false
  cmpGt := false
  count := 0
  out := out
  pending := none

/-- The machine right after hardware reset, `rst_n` released, nothing on the agenda
(70_reset_and_hazards.md R260, R262, R263). OUT took draw 0; the next draw is 1 (log entry 4). -/
def State.reset : State where
  blk := Block.atReset (launchOut 0)
  rstN := true
  agenda := []
  returned := []
  draws := 1

end Sys2Proof.Machine
end

