-- ==== Sys2Proof/Machine/Bits.lean ====
section
/-! DEFINITION. The arithmetic helpers of spec/00_scope.md R12, on natural numbers of unbounded size,
as the spec writes them; and the 32-bit words of a 128-bit value (spec/10_state.md R23). -/

namespace Sys2Proof.Machine

/-- `ones(n) = 2^n - 1`, the `n` low bits set (R12). -/
def ones (n : Nat) : Nat := 2 ^ n - 1

/-- `mask(W, p) = ones(W) - ones(W - p)`, the top `p` of `W` bits set (R12). -/
def mask (W p : Nat) : Nat := ones W - ones (W - p)

/-- `hostMask(W, p) = ones(W - p)`, the low `W - p` bits set (R12). -/
def hostMask (W p : Nat) : Nat := ones (W - p)

/-- `canon(a, W, p) = a & mask(W, p)` (R12). -/
def canon (a W p : Nat) : Nat := a &&& mask W p

/-- `clearLow(c, b) = (c >> b) << b` (R12). -/
def clearLow (c b : Nat) : Nat := (c >>> b) <<< b

/-- "greatest j in 0..n with P j", and 0 where no `j` of `1..n` has `P` (R12, R140, R180, R201). -/
def greatest (P : Nat → Bool) : (n : Nat) → Nat
  | 0 => 0
  | n + 1 => if P (n + 1) then n + 1 else greatest P n

/-- "greatest b in 0..W with c & ones(b) = ones(b)" (R12). -/
def trailingOnes (c W : Nat) : Nat := greatest (fun b => c &&& ones b == ones b) W

/-- "W if a = 0, else greatest b in 0..W-1 with a & ones(b) = 0" (R12). -/
def trailingZeros (a W : Nat) : Nat :=
  if a = 0 then W else greatest (fun b => a &&& ones b == 0) (W - 1)

/-- The field `a[W-1 : W-q]`, the top `q` bits of a `W`-bit number; empty, so 0, for `q = 0`
(R10, 42_mask.md R140). -/
def topField (a W q : Nat) : Nat := (a >>> (W - q)) &&& ones q

/-- "greatest q in 0..W with a[W-1 : W-q] = ones(q)", the count of leading 1-bits (42_mask.md R140). -/
def leadingOnes (a W : Nat) : Nat := greatest (fun q => topField a W q == ones q) W

/-- Word `k` of a value: bits `32k+31 : 32k` (10_state.md R23). -/
def wordOf (v : Value) (k : Fin 4) : Word := v.extractLsb' (32 * k.val) 32

/-- A value with word `k` replaced and its other words kept (20_memory.md R66). -/
def replaceWord (v : Value) (k : Fin 4) (w : Word) : Value :=
  (v &&& ~~~((0xFFFFFFFF#128) <<< (32 * k.val))) ||| (w.zeroExtend 128 <<< (32 * k.val))

end Sys2Proof.Machine
end

