-- ==== Sys2Proof/Machine/Operands.lean ====
section
/-! DEFINITION. What a command computes: its results before they are written, and the checks every
command shares, in the fixed order of spec/40_command.md R114 (R115 to R119, R121). -/

namespace Sys2Proof.Machine

/-- A CIDR prefix `addr/bits` as a command computes it (00_scope.md R14). -/
structure Cidr where
  addr : Nat
  bits : Nat
  deriving DecidableEq, Repr

/-- The three comparison flags a CMP writes (10_state.md R33). -/
structure CmpFlags where
  lt : Bool
  eq : Bool
  gt : Bool
  deriving DecidableEq, Repr

/-- The updates of an `Ok` (40_command.md R119): a field that is `none` is not written. `out` stands
for OUT[0..n-1] and COUNT together, which only DECOMPOSE writes. -/
structure Results where
  r0 : Option Nat := none
  r1 : Option Nat := none
  rNum : Option Nat := none
  rLen : Option Len := none
  cmp : Option CmpFlags := none
  out : Option (List Cidr) := none
  deriving DecidableEq, Repr

/-- `W(LEN) = 8 * LEN` (00_scope.md R9). -/
def width (len : Len) : Nat := 8 * len.toNat

/-- The byte length is 4 or 16 (10_state.md R26, 40_command.md R115). -/
def validLen (len : Len) : Bool := len == 4#5 || len == 16#5

/-- `validAddr` of 40_command.md R115. -/
def validAddr (v : Value) (len : Len) : Bool := validLen len && decide (v.toNat < 2 ^ width len)

/-- Go on when `ok` holds, raise `kind` otherwise (00_scope.md R11 `raise`). -/
def require (ok : Bool) (kind : ErrorKind) : Except ErrorKind Unit :=
  if ok then .ok () else .error kind

/-- Steps 1 of 40_command.md R114 for a command that reads A; answers `W`. -/
def oneOperand (p : Pending) : Except ErrorKind Nat := do
  require (validAddr p.a p.lenA) .invalidAddress
  return width p.lenA

/-- Step 1 of R114 for PLEN2MASK, which reads LEN_A alone (42_mask.md R143); answers `W`. -/
def lengthOperand (p : Pending) : Except ErrorKind Nat := do
  require (validLen p.lenA) .invalidAddress
  return width p.lenA

/-- Steps 1 to 3 of R114 for a command that reads A and B: A, then B, then the family
(R115, R117); answers `W` (R118). -/
def twoOperands (p : Pending) : Except ErrorKind Nat := do
  require (validAddr p.a p.lenA) .invalidAddress
  require (validAddr p.b p.lenB) .invalidAddress
  require (p.lenA == p.lenB) .familyMismatch
  return width p.lenA

/-- Step 4 of R114: the prefix length is at most `W` (R116). -/
def checkPlen (plen W : Nat) : Except ErrorKind Unit :=
  require (decide (plen ≤ W)) .invalidPrefixLength

/-- Step 5 of R114 for a command on a range: its start is not above its end (44_decompose.md R180,
R201, R205). -/
def checkRange (s e : Nat) : Except ErrorKind Unit := require (decide (s ≤ e)) .invalidRange

/-- Step 5 of R114 for a command on a mask: the prefix length of a canonical mask, or
NonCanonicalMask where a 1-bit follows a 0-bit (42_mask.md R140, R141). -/
def maskLength (m W : Nat) : Except ErrorKind Nat := do
  require (m == mask W (leadingOnes m W)) .nonCanonicalMask
  return leadingOnes m W

/-- Every address the results write is below `2^W` (40_command.md R121). -/
def Results.fits (r : Results) (W : Nat) : Bool :=
  r.r0.all (· < 2 ^ W) && r.r1.all (· < 2 ^ W) && r.out.all (·.all (·.addr < 2 ^ W))

/-- Step 6 of R114, the result check, before an `Ok` is answered (R121). -/
def checked (W : Nat) (r : Results) : Except ErrorKind Results := do
  require (r.fits W) .addressConversionError
  return r

end Sys2Proof.Machine
end

