-- ==== Sys2Proof/Machine/Flags.lean ====
section
/-! DEFINITION. The comparison flags, the numeric error codes, the words the flag registers read as
and the interrupt line (spec/10_state.md R23, R28, R29, R32, R33; spec/60_exceptions.md R220, R230). -/

namespace Sys2Proof.Machine

/-- CMP's flags: the unsigned comparison of two addresses (41_address.md R130). -/
def compareFlags (a b : Nat) : CmpFlags where
  lt := decide (a < b)
  eq := decide (a = b)
  gt := decide (a > b)

/-- The ERRCODE value of an error kind (60_exceptions.md R220). -/
def ErrorKind.code : ErrorKind → BitVec 4
  | .invalidAddress => 1
  | .familyMismatch => 2
  | .invalidRange => 3
  | .nonCanonicalMask => 4
  | .addressConversionError => 5
  | .illegalCommand => 6
  | .invalidPrefixLength => 7

/-- STATUS: [0] BUSY, [1] DONE, [2] ERR, [3] HOSTERR, [11:8] ERRCODE, the rest reads 0 (R23, R28). -/
def Block.statusWord (b : Block) : Word :=
  0#20 ++ b.errCode ++ 0#4 ++ BitVec.ofBool b.hostErr ++ BitVec.ofBool b.err ++
    BitVec.ofBool b.done ++ BitVec.ofBool b.busy

/-- CTRL: [0] IRQ_EN; SRST and the reserved bits read 0 (R23, R29). -/
def Block.ctrlWord (b : Block) : Word := 0#31 ++ BitVec.ofBool b.irqEn

/-- R_INFO: [7:0] RNUM, [12:8] RLEN, [16] CMP_LT, [17] CMP_EQ, [18] CMP_GT, the rest reads 0
(R23, R32). -/
def Block.infoWord (b : Block) : Word :=
  0#13 ++ BitVec.ofBool b.cmpGt ++ BitVec.ofBool b.cmpEq ++ BitVec.ofBool b.cmpLt ++ 0#3 ++
    b.rLen ++ b.rNum

/-- The level of the interrupt output: `irq = DONE & IRQ_EN` (10_state.md R39, 60_exceptions.md R230). -/
def Block.irq (b : Block) : Bool := b.done && b.irqEn

end Sys2Proof.Machine
end

