-- ==== Sys2Proof/Machine/Ops.lean ====
section
/-! DEFINITION. The named operations over the state: acceptance of a command
(spec/40_command.md R111), completion, which is the block's "exception entry" (R113, R119,
spec/60_exceptions.md R221, R224, R228), the host's return from it (R229), refusal of an access
(spec/20_memory.md R64), the two resets (spec/70_reset_and_hazards.md R260, R261) and the return of a
word to the host. -/

namespace Sys2Proof.Machine

/-- The state with another block and the same environment. -/
def State.withBlk (s : State) (b : Block) : State := { s with blk := b }

/-- Acceptance of the command word `w`: the operands are latched, BUSY rises and DONE, ERR and ERRCODE
are cleared (40_command.md R111). -/
def Block.accept (b : Block) (w : Word) : Block :=
  { b with
    cmd := w
    pending := some { word := w, a := b.a, lenA := b.lenA, b := b.b, lenB := b.lenB }
    busy := true
    done := false
    err := false
    errCode := 0 }

/-- An entry of OUT as it is stored (44_decompose.md R180). -/
def Cidr.toEntry (c : Cidr) : OutEntry :=
  { addr := BitVec.ofNat 128 c.addr, bits := BitVec.ofNat 8 c.bits }

/-- OUT with its first entries replaced by the prefixes of `l` and every other entry kept
(44_decompose.md R180, R187). -/
def overlay (l : List Cidr) (out : Vector OutEntry Config.outDepth) :
    Vector OutEntry Config.outDepth :=
  Vector.ofFn fun i => match l[i.val]? with
    | some c => c.toEntry
    | none => out[i]

/-- The updates of an `Ok`: exactly the listed fields, each written whole and zero-extended, all other
fields kept (40_command.md R119, 10_state.md R31; log entry 16). -/
def Block.applyResults (b : Block) (r : Results) : Block :=
  { b with
    r0 := (r.r0.map (BitVec.ofNat 128)).getD b.r0
    r1 := (r.r1.map (BitVec.ofNat 128)).getD b.r1
    rNum := (r.rNum.map (BitVec.ofNat 8)).getD b.rNum
    rLen := r.rLen.getD b.rLen
    cmpLt := (r.cmp.map (·.lt)).getD b.cmpLt
    cmpEq := (r.cmp.map (·.eq)).getD b.cmpEq
    cmpGt := (r.cmp.map (·.gt)).getD b.cmpGt
    count := (r.out.map fun l => BitVec.ofNat 9 l.length).getD b.count
    out := (r.out.map fun l => overlay l b.out).getD b.out }

/-- Completion with `Ok(updates)`: the results are written, ERR and ERRCODE are 0, BUSY falls and DONE
rises, in one atomic step (40_command.md R113). -/
def Block.completeOk (b : Block) (r : Results) : Block :=
  { b.applyResults r with
    err := false
    errCode := 0
    busy := false
    done := true
    pending := none }

/-- Completion with `Err(kind)`: ERR and ERRCODE report it and no result is written
(40_command.md R113, 60_exceptions.md R221, R224). -/
def Block.completeErr (b : Block) (kind : ErrorKind) : Block :=
  { b with
    err := true
    errCode := kind.code
    busy := false
    done := true
    pending := none }

/-- The engine's completion step on a command's outcome (40_command.md R113). AddressConversionError is
a fault of the model (60_exceptions.md R225; log entry 5). -/
def State.complete (s : State) : Except ErrorKind Results → Host.Outcome State Fault Refusal
  | .ok r => .next (s.withBlk (s.blk.completeOk r))
  | .error .addressConversionError => .fault .addressConversionError
  | .error kind => .next (s.withBlk (s.blk.completeErr kind))

/-- Run the command in flight on its latched operands and complete it. With no command in flight the
engine's step is not enabled and nothing happens (40_command.md R112; log entry 6). -/
def State.runCommand (s : State) (effect : Pending → Except ErrorKind Results) :
    Host.Outcome State Fault Refusal :=
  match s.blk.pending with
  | none => .next s
  | some p => s.complete (effect p)

/-- What a refused host access does to the block: HOSTERR is set, nothing else changes
(20_memory.md R64). -/
def Block.refuse (b : Block) : Block := { b with hostErr := true }

/-- A host write to STATUS: bit 1 clears DONE, bit 3 clears HOSTERR (20_memory.md R69). Clearing DONE is
the host's return from a completion (60_exceptions.md R229). -/
def Block.writeStatus (b : Block) (v : Word) : Block :=
  { b with
    done := b.done && !v.getLsbD 1
    hostErr := b.hostErr && !v.getLsbD 3 }

/-- Soft reset: every value of R260 but OUT, which keeps its contents (70_reset_and_hazards.md R261). -/
def Block.softReset (b : Block) : Block := Block.atReset b.out

/-- A host write to CTRL: SRST resets, and otherwise IRQ_EN takes bit 0 (20_memory.md R69,
10_state.md R29). -/
def Block.writeCtrl (b : Block) (v : Word) : Block :=
  if v.getLsbD 1 then b.softReset else { b with irqEn := v.getLsbD 0 }

/-- The block takes its hardware-reset state, with fresh unspecified contents of OUT
(70_reset_and_hazards.md R260, R262). -/
def State.hardReset (s : State) : State :=
  { s with blk := Block.atReset (launchOut s.draws), draws := s.draws + 1 }

/-- `rst_n` goes low: the block takes the reset state (70_reset_and_hazards.md R260). -/
def State.resetLow (s : State) : State := { s.hardReset with rstN := false }

/-- `rst_n` goes high: the block takes the reset state "at the step where it is released"
(70_reset_and_hazards.md R260). A pin that is high already changes nothing. -/
def State.resetHigh (s : State) : State :=
  if s.rstN then s else { s.hardReset with rstN := true }

/-- A read returns the word `v` to the host. -/
def State.answer (s : State) (v : Word) : State := { s with returned := v :: s.returned }

/-- A read returns an unspecified word, drawn afresh (20_memory.md R72, 70_reset_and_hazards.md R260). -/
def State.answerFree (s : State) : State :=
  { s with returned := Config.freeWord s.draws :: s.returned, draws := s.draws + 1 }

end Sys2Proof.Machine
end

