-- ==== Sys2Proof/Machine/Address.lean ====
section
/-! DEFINITION. The AddressValue command: CMP (spec/41_address.md). -/

namespace Sys2Proof.Machine

/-- `exec_CMP` of 41_address.md R130. It writes the three flags and nothing else. -/
def cmpEffect (p : Pending) : Except ErrorKind Results := do
  let W ← twoOperands p
  checked W { cmp := some (compareFlags p.a.toNat p.b.toNat) }

/-- CMP (41_address.md R130). -/
def execCmp (_plen : Nat) (s : State) : Host.Outcome State Fault Refusal :=
  s.runCommand cmpEffect

end Sys2Proof.Machine
end

