-- ==== Sys2Proof/Machine/Decompose.lean ====
section
/-! DEFINITION. The RangeDecomposer and the bit-alignment comparator: DECOMPOSE, ALIGN_END,
ALIGN_START, STEP_DOWN, STEP_UP (spec/44_decompose.md). -/

namespace Sys2Proof.Machine

/-- The host bits of the largest aligned block that starts at `cur` and does not pass `e`:
"greatest j in 0..k with cur + ones(j) <= e" (44_decompose.md R180, R205). -/
def upBits (W cur e : Nat) : Nat :=
  greatest (fun j => decide (cur + ones j ≤ e)) (trailingZeros cur W)

/-- The host bits of the largest aligned block that ends at `c` and does not start below `s`:
"greatest j in 0..a with clearLow(c, j) >= s" (44_decompose.md R201). -/
def downBits (W s c : Nat) : Nat :=
  greatest (fun j => decide (s ≤ clearLow c j)) (trailingOnes c W)

/-- The loop of `exec_DECOMPOSE`, at most `fuel` times round (44_decompose.md R180). -/
def decomposeLoop (W e : Nat) : (fuel cur : Nat) → List Cidr
  | 0, _ => []
  | fuel + 1, cur =>
    { addr := cur, bits := W - upBits W cur e } ::
      (if cur + ones (upBits W cur e) = e then []
       else decomposeLoop W e fuel (cur + 2 ^ upBits W cur e))

/-- The prefixes of `[s, e]`. The loop goes round at most `2W - 2` times (R120, R189), so the fuel
`2W + 1` never runs out: `decompose_tiles` in Laws/Decompose.lean proves it (log entry 13). -/
def decompose (W s e : Nat) : List Cidr := decomposeLoop W e (2 * W + 1) s

/-- `exec_DECOMPOSE` of 44_decompose.md R180. -/
def decomposeEffect (p : Pending) : Except ErrorKind Results := do
  let W ← twoOperands p
  checkRange p.a.toNat p.b.toNat
  checked W { out := some (decompose W p.a.toNat p.b.toNat), rLen := some p.lenA }

/-- DECOMPOSE (44_decompose.md R180). -/
def execDecompose (_plen : Nat) (s : State) : Host.Outcome State Fault Refusal :=
  s.runCommand decomposeEffect

/-- `exec_ALIGN_END` of 44_decompose.md R195. -/
def alignEndEffect (p : Pending) : Except ErrorKind Results := do
  let W ← oneOperand p
  checked W { rNum := some (trailingOnes p.a.toNat W), rLen := some p.lenA }

/-- ALIGN_END (44_decompose.md R195). -/
def execAlignEnd (_plen : Nat) (s : State) : Host.Outcome State Fault Refusal :=
  s.runCommand alignEndEffect

/-- `exec_ALIGN_START` of 44_decompose.md R198. -/
def alignStartEffect (p : Pending) : Except ErrorKind Results := do
  let W ← oneOperand p
  checked W { rNum := some (trailingZeros p.a.toNat W), rLen := some p.lenA }

/-- ALIGN_START (44_decompose.md R198). -/
def execAlignStart (_plen : Nat) (s : State) : Host.Outcome State Fault Refusal :=
  s.runCommand alignStartEffect

/-- `exec_STEP_DOWN` of 44_decompose.md R201: A is the range start, B the cursor. -/
def stepDownEffect (p : Pending) : Except ErrorKind Results := do
  let W ← twoOperands p
  checkRange p.a.toNat p.b.toNat
  let n := downBits W p.a.toNat p.b.toNat
  checked W
    { r0 := some (clearLow p.b.toNat n), r1 := some p.b.toNat, rNum := some (W - n),
      rLen := some p.lenA }

/-- STEP_DOWN (44_decompose.md R201). -/
def execStepDown (_plen : Nat) (s : State) : Host.Outcome State Fault Refusal :=
  s.runCommand stepDownEffect

/-- `exec_STEP_UP` of 44_decompose.md R205: A is the range start, B its end. -/
def stepUpEffect (p : Pending) : Except ErrorKind Results := do
  let W ← twoOperands p
  checkRange p.a.toNat p.b.toNat
  let n := upBits W p.a.toNat p.b.toNat
  checked W
    { r0 := some p.a.toNat, r1 := some (p.a.toNat + ones n), rNum := some (W - n),
      rLen := some p.lenA }

/-- STEP_UP (44_decompose.md R205). -/
def execStepUp (_plen : Nat) (s : State) : Host.Outcome State Fault Refusal :=
  s.runCommand stepUpEffect

end Sys2Proof.Machine
end

