-- ==== Sys2Proof/Machine/Expand.lean ====
section
/-! DEFINITION. The CIDRExpander commands: EXPAND, NETMASK, CANON (spec/43_expand.md). -/

namespace Sys2Proof.Machine

/-- `exec_EXPAND` of 43_expand.md R160. -/
def expandEffect (plen : Nat) (p : Pending) : Except ErrorKind Results := do
  let W ← oneOperand p
  checkPlen plen W
  let first := canon p.a.toNat W plen
  let last := first ||| hostMask W plen
  checked W { r0 := some first, r1 := some last, rNum := some plen, rLen := some p.lenA }

/-- EXPAND (43_expand.md R160). -/
def execExpand (plen : Nat) (s : State) : Host.Outcome State Fault Refusal :=
  s.runCommand (expandEffect plen)

/-- `exec_NETMASK` of 43_expand.md R163. -/
def netmaskEffect (plen : Nat) (p : Pending) : Except ErrorKind Results := do
  let W ← oneOperand p
  checkPlen plen W
  checked W { r0 := some (mask W plen), rNum := some plen, rLen := some p.lenA }

/-- NETMASK (43_expand.md R163). -/
def execNetmask (plen : Nat) (s : State) : Host.Outcome State Fault Refusal :=
  s.runCommand (netmaskEffect plen)

/-- `exec_CANON` of 43_expand.md R166. -/
def canonEffect (plen : Nat) (p : Pending) : Except ErrorKind Results := do
  let W ← oneOperand p
  checkPlen plen W
  checked W { r0 := some (canon p.a.toNat W plen), rNum := some plen, rLen := some p.lenA }

/-- CANON (43_expand.md R166). -/
def execCanon (plen : Nat) (s : State) : Host.Outcome State Fault Refusal :=
  s.runCommand (canonEffect plen)

end Sys2Proof.Machine
end

