-- ==== Sys2Proof/Machine/Mask.lean ====
section
/-! DEFINITION. The MaskConverter commands: MASK2PLEN, PLEN2MASK, ADDRMASK2PREFIX
(spec/42_mask.md). -/

namespace Sys2Proof.Machine

/-- `exec_MASK2PLEN` of 42_mask.md R140. -/
def mask2plenEffect (p : Pending) : Except ErrorKind Results := do
  let W ← oneOperand p
  let n ← maskLength p.a.toNat W
  checked W { rNum := some n, rLen := some p.lenA }

/-- MASK2PLEN (42_mask.md R140). -/
def execMask2plen (_plen : Nat) (s : State) : Host.Outcome State Fault Refusal :=
  s.runCommand mask2plenEffect

/-- `exec_PLEN2MASK` of 42_mask.md R143: A's value is not read. -/
def plen2maskEffect (plen : Nat) (p : Pending) : Except ErrorKind Results := do
  let W ← lengthOperand p
  checkPlen plen W
  checked W { r0 := some (mask W plen), rNum := some plen, rLen := some p.lenA }

/-- PLEN2MASK (42_mask.md R143). -/
def execPlen2mask (plen : Nat) (s : State) : Host.Outcome State Fault Refusal :=
  s.runCommand (plen2maskEffect plen)

/-- `exec_ADDRMASK2PREFIX` of 42_mask.md R146: the address is kept as it is (R148). -/
def addrmask2prefixEffect (p : Pending) : Except ErrorKind Results := do
  let W ← twoOperands p
  let n ← maskLength p.b.toNat W
  checked W { r0 := some p.a.toNat, rNum := some n, rLen := some p.lenA }

/-- ADDRMASK2PREFIX (42_mask.md R146). -/
def execAddrmask2prefix (_plen : Nat) (s : State) : Host.Outcome State Fault Refusal :=
  s.runCommand addrmask2prefixEffect

end Sys2Proof.Machine
end

