-- ==== Sys2Proof/Machine/Dispatch.lean ====
section
/-! DEFINITION. One arm per command of spec/30_encoding.md R92: the engine's completion of that command
on the operands in flight (spec/40_command.md R113). -/

namespace Sys2Proof.Machine
open Sys2Proof

def exec (i : Instr) (s : State) : Host.Outcome State Fault Refusal :=
  match i with
  | .cmp plen => Sys2Proof.Machine.execCmp plen s
  | .mask2plen plen => Sys2Proof.Machine.execMask2plen plen s
  | .plen2mask plen => Sys2Proof.Machine.execPlen2mask plen s
  | .addrmask2prefix plen => Sys2Proof.Machine.execAddrmask2prefix plen s
  | .expand plen => Sys2Proof.Machine.execExpand plen s
  | .netmask plen => Sys2Proof.Machine.execNetmask plen s
  | .canon plen => Sys2Proof.Machine.execCanon plen s
  | .decompose plen => Sys2Proof.Machine.execDecompose plen s
  | .alignEnd plen => Sys2Proof.Machine.execAlignEnd plen s
  | .alignStart plen => Sys2Proof.Machine.execAlignStart plen s
  | .stepDown plen => Sys2Proof.Machine.execStepDown plen s
  | .stepUp plen => Sys2Proof.Machine.execStepUp plen s

end Sys2Proof.Machine
end

