-- ==== Sys2Proof/Machine/RegMap.lean ====
section
/-! DEFINITION. The register map and host accesses: which register an offset names
(spec/10_state.md R23), what a read returns and what a write does, which accesses are refused
(spec/20_memory.md R62 to R72). -/

namespace Sys2Proof.Machine

/-- The 32-bit registers of 10_state.md R23, each word of each register under its own name. -/
inductive Reg where
  | id
  | ctrl
  | cmd
  | status
  | lenA
  | lenB
  | rInfo
  | count
  | aW (k : Fin 4)
  | bW (k : Fin 4)
  | r0W (k : Fin 4)
  | r1W (k : Fin 4)
  /-- OUTi_ADDR_Wk. -/
  | outAddr (i : Fin 256) (k : Fin 4)
  /-- OUTi_BITS. -/
  | outBits (i : Fin 256)
  /-- The reserved words 0x14, 0x18, 0x1C inside entry `i` (20_memory.md R65). -/
  | outReserved (i : Fin 256) (k : Fin 3)
  deriving DecidableEq, Repr

/-- The byte offset of a register from BASE (10_state.md R23). -/
def Reg.offset : Reg → BitVec 14
  | .id => 0x000
  | .ctrl => 0x004
  | .cmd => 0x008
  | .status => 0x00C
  | .lenA => 0x010
  | .lenB => 0x014
  | .rInfo => 0x018
  | .count => 0x01C
  | .aW k => BitVec.ofNat 14 (0x020 + 4 * k.val)
  | .bW k => BitVec.ofNat 14 (0x030 + 4 * k.val)
  | .r0W k => BitVec.ofNat 14 (0x040 + 4 * k.val)
  | .r1W k => BitVec.ofNat 14 (0x050 + 4 * k.val)
  | .outAddr i k => BitVec.ofNat 14 (0x1000 + 0x20 * i.val + 4 * k.val)
  | .outBits i => BitVec.ofNat 14 (0x1000 + 0x20 * i.val + 0x10)
  | .outReserved i k => BitVec.ofNat 14 (0x1000 + 0x20 * i.val + 0x14 + 4 * k.val)

/-- The word of an output-buffer entry that word number `j` of the entry is (10_state.md R23). -/
def Reg.ofEntryWord (i : Fin 256) (j : Nat) : Reg :=
  if j < 4 then .outAddr i (Fin.ofNat 4 j)
  else if j = 4 then .outBits i
  else .outReserved i (Fin.ofNat 3 (j - 5))

/-- The register at a word-aligned offset; none at a reserved offset (10_state.md R23,
20_memory.md R65). -/
def Reg.ofOffset (off : BitVec 14) : Option Reg :=
  let n := off.toNat
  if n < 0x020 then
    match n / 4 with
    | 0 => some .id
    | 1 => some .ctrl
    | 2 => some .cmd
    | 3 => some .status
    | 4 => some .lenA
    | 5 => some .lenB
    | 6 => some .rInfo
    | _ => some .count
  else if n < 0x030 then some (.aW (Fin.ofNat 4 ((n - 0x020) / 4)))
  else if n < 0x040 then some (.bW (Fin.ofNat 4 ((n - 0x030) / 4)))
  else if n < 0x050 then some (.r0W (Fin.ofNat 4 ((n - 0x040) / 4)))
  else if n < 0x060 then some (.r1W (Fin.ofNat 4 ((n - 0x050) / 4)))
  else if n < 0x1000 then none
  else if n < 0x3000 then
    some (Reg.ofEntryWord (Fin.ofNat 256 ((n - 0x1000) / 0x20)) (n % 0x20 / 4))
  else none

/-- R0, R1, R_INFO, COUNT and every output-buffer word: a read of one while busy returns an unspecified
value (20_memory.md R72; log entry 9). -/
def Reg.isResult : Reg → Bool
  | .rInfo | .count | .r0W _ | .r1W _ | .outAddr _ _ | .outBits _ | .outReserved _ _ => true
  | .id | .ctrl | .cmd | .status | .lenA | .lenB | .aW _ | .bW _ => false

/-- The state value of a register: its bits at their positions, reserved bits 0 (20_memory.md R70,
10_state.md R23, R37). -/
def Block.readReg (b : Block) : Reg → Word
  | .id => Config.idWord
  | .ctrl => b.ctrlWord
  | .cmd => b.cmd
  | .status => b.statusWord
  | .lenA => b.lenA.zeroExtend 32
  | .lenB => b.lenB.zeroExtend 32
  | .rInfo => b.infoWord
  | .count => b.count.zeroExtend 32
  | .aW k => wordOf b.a k
  | .bW k => wordOf b.b k
  | .r0W k => wordOf b.r0 k
  | .r1W k => wordOf b.r1 k
  | .outAddr i k => wordOf b.out[i].addr k
  | .outBits i => b.out[i].bits.zeroExtend 32
  | .outReserved _ _ => 0#32

/-- Run `f` on the block while it is idle, and refuse the access while BUSY = 1 (20_memory.md R67). -/
def Block.whenIdle (b : Block) (f : Block → Block) : Block := if b.busy then b.refuse else f b

/-- An admitted write of `v` to a register: operands and CMD while idle (20_memory.md R66, R67,
40_command.md R110), CTRL and STATUS always (R69), every other register is read-only (R68). -/
def Block.writeReg (b : Block) (r : Reg) (v : Word) : Block :=
  match r with
  | .ctrl => b.writeCtrl v
  | .status => b.writeStatus v
  | .cmd => b.whenIdle fun b => b.accept v
  | .lenA => b.whenIdle fun b => { b with lenA := v.setWidth 5 }
  | .lenB => b.whenIdle fun b => { b with lenB := v.setWidth 5 }
  | .aW k => b.whenIdle fun b => { b with a := replaceWord b.a k v }
  | .bW k => b.whenIdle fun b => { b with b := replaceWord b.b k v }
  | .id | .rInfo | .count | .r0W _ | .r1W _ | .outAddr _ _ | .outBits _ | .outReserved _ _ =>
    b.refuse

/-- The access is a full word at a word-aligned offset (20_memory.md R63). -/
def admitted (off : BitVec 14) (be : BitVec 4) : Bool := off.toNat % 4 == 0 && be == 0b1111#4

/-- The register an admitted access reaches; none where the access is refused for its shape or its
offset (20_memory.md R63, R65). -/
def target (off : BitVec 14) (be : BitVec 4) : Option Reg :=
  if admitted off be then Reg.ofOffset off else none

/-- A host read with `rst_n` high (20_memory.md R64, R70 to R72). -/
def State.hostRead (s : State) (off : BitVec 14) (be : BitVec 4) : State :=
  match target off be with
  | none => (s.withBlk s.blk.refuse).answer 0#32
  | some r => if s.blk.busy && r.isResult then s.answerFree else s.answer (s.blk.readReg r)

/-- A host write with `rst_n` high (20_memory.md R64 to R69). -/
def State.hostWrite (s : State) (off : BitVec 14) (be : BitVec 4) (v : Word) : State :=
  match target off be with
  | none => s.withBlk s.blk.refuse
  | some r => s.withBlk (s.blk.writeReg r v)

/-- One transaction at the host port. One that is not addressed to the block does nothing
(20_memory.md R61, R62). While `rst_n` is low a read returns an unspecified value and a write has no
effect (70_reset_and_hazards.md R260). -/
def State.access (s : State) (t : BusTxn) : State :=
  if !t.sel then s
  else if !s.rstN then (if t.we then s else s.answerFree)
  else if t.we then s.hostWrite t.off t.be t.wdata
  else s.hostRead t.off t.be

/-- The system's decoding of a transaction at a system address: it is addressed to the block when the
address lies in `[BASE, BASE + 0x4000)`, at its offset from BASE (20_memory.md R61, R62). -/
def systemTxn (addr : Nat) (we : Bool) (be : BitVec 4) (wdata : Word) : BusTxn where
  sel := decide (Config.base ≤ addr ∧ addr < Config.base + Config.windowSize)
  we := we
  off := BitVec.ofNat 14 (addr - Config.base)
  be := be
  wdata := wdata

end Sys2Proof.Machine
end

