-- ==== Sys2Proof/Machine/Engine.lean ====
section
/-! DEFINITION. The engine agent's turn: it decodes the command in flight and completes it
(spec/40_command.md R112, R113), and one event of the agenda. -/

namespace Sys2Proof.Machine

/-- The engine's step. It is enabled exactly when a command is in flight (40_command.md R112), and not
while the block is held in reset (70_reset_and_hazards.md R260); an illegal word completes with
IllegalCommand (R113, 30_encoding.md R93). -/
def State.engineTurn (s : State) : Host.Outcome State Fault Refusal :=
  match s.rstN, s.blk.pending with
  | true, some p =>
    match decode p.word with
    | .ok i => exec i s
    | .error _ => s.complete (.error .illegalCommand)
  | _, _ => .next s

/-- One event, the agenda being what follows it. -/
def State.perform (s : State) : Event → Host.Outcome State Fault Refusal
  | .engineTurn => s.engineTurn
  | .port t => .next (s.access t)
  | .system addr we be wdata => .next (s.access (systemTxn addr we be wdata))
  | .resetLow => .next s.resetLow
  | .resetHigh => .next s.resetHigh

/-- The command word `w` in flight and the engine next to move: what the host's write of `w` to CMD
leaves behind (40_command.md R110, R111). The reset pin is high, and where other events are already
due, the engine's turn is put before them. Log entry 8. -/
def State.placeCommand (s : State) (w : Word) : State :=
  { s with
    blk := s.blk.accept w
    rstN := true
    agenda := match s.agenda with
      | [] => []
      | es => .engineTurn :: es }

end Sys2Proof.Machine
end

