-- ==== Sys2Proof/Machine/Step.lean ====
section
/-! DEFINITION. One step of the machine, and how a command word is placed where the next step runs it
(spec/00_scope.md R4, R17; spec/40_command.md R112). -/

namespace Sys2Proof.Machine

/-- One step: the agenda's first event, or, with nothing on the agenda, the engine's turn, the one
thing left that can move (40_command.md R112; log entry 3). -/
def step (s : State) : Host.Outcome State Fault Refusal :=
  match s.agenda with
  | [] => s.engineTurn
  | e :: rest => ({ s with agenda := rest } : State).perform e

/-- The state whose next step runs the command word with low bits `w` (log entry 8). -/
def State.withFetchWord (s : State) (nbits w : Nat) : State := s.placeCommand (tableWord nbits w)

end Sys2Proof.Machine
end

