-- ==== Sys2Proof/Machine/Assembler.lean ====
section
/-! DEFINITION. The assembler's lines as the transactions they stand for (spec/30_encoding.md R97, R98).
A host's own control flow (labels, loops, branches on read values) belongs to the host program and not
to the block (R98); a `POLL` loop stands here as the engine's turn and its last read. -/

namespace Sys2Proof.Machine.Asm

/-- `WR <reg>, <value>`: a full-word write (R97). -/
def wr (r : Reg) (v : Word) : Event :=
  .port { sel := true, we := true, off := r.offset, be := 0b1111#4, wdata := v }

/-- `RD <reg>`: a full-word read (R97). -/
def rd (r : Reg) : Event :=
  .port { sel := true, we := false, off := r.offset, be := 0b1111#4, wdata := 0 }

/-- `WR @0xNNN, <value>`: a write at a raw offset (R97). -/
def wrAt (off : BitVec 14) (v : Word) : Event :=
  .port { sel := true, we := true, off := off, be := 0b1111#4, wdata := v }

/-- `RD @0xNNN`: a read at a raw offset (R97). -/
def rdAt (off : BitVec 14) : Event :=
  .port { sel := true, we := false, off := off, be := 0b1111#4, wdata := 0 }

/-- `CMD <MNEMONIC>, <p>`: the write of the command's word to CMD (R97). -/
def cmd (i : Instr) : Event := wr .cmd (encode i)

/-- `LDA.4 a` (R98). -/
def lda4 (a : Word) : List Event :=
  [wr .lenA 4, wr (.aW 0) a, wr (.aW 1) 0, wr (.aW 2) 0, wr (.aW 3) 0]

/-- `LDA.16 a` (R98). -/
def lda16 (a : Value) : List Event :=
  [wr .lenA 16, wr (.aW 0) (wordOf a 0), wr (.aW 1) (wordOf a 1), wr (.aW 2) (wordOf a 2),
    wr (.aW 3) (wordOf a 3)]

/-- `LDB.4 b` (R98). -/
def ldb4 (b : Word) : List Event :=
  [wr .lenB 4, wr (.bW 0) b, wr (.bW 1) 0, wr (.bW 2) 0, wr (.bW 3) 0]

/-- `LDB.16 b` (R98). -/
def ldb16 (b : Value) : List Event :=
  [wr .lenB 16, wr (.bW 0) (wordOf b 0), wr (.bW 1) (wordOf b 1), wr (.bW 2) (wordOf b 2),
    wr (.bW 3) (wordOf b 3)]

/-- `POLL` with `n` reads that still see BUSY, then the completion and the read that ends the loop
(R98, 70_reset_and_hazards.md R273; 95_test_vectors.md section 4). -/
def poll (n : Nat) : List Event := List.replicate n (rd .status) ++ [.engineTurn, rd .status]

/-- `RUN op, p`: the command and a `POLL` (R98). -/
def run (i : Instr) (n : Nat) : List Event := cmd i :: poll n

/-- `RD128 R0` (R98). -/
def rd128R0 : List Event := [rd (.r0W 0), rd (.r0W 1), rd (.r0W 2), rd (.r0W 3)]

/-- `RD128 R1` (R98). -/
def rd128R1 : List Event := [rd (.r1W 0), rd (.r1W 1), rd (.r1W 2), rd (.r1W 3)]

/-- `ACK`: clear DONE (R98). -/
def ack : Event := wr .status 2

end Sys2Proof.Machine.Asm
end

