-- ==== Sys2Proof/Safety.lean ====
section
/-! DEFINITION. The terms claims are stated in: valid operands, the state after a successful and after a
failed completion, the invariant of the block, tilings of a range by CIDR blocks, and the latency of a
run. They restate what the rules of spec/ say and are used by no definition of the machine. -/

namespace Sys2Proof.Machine

/-- An operand
`(v, len)` is a valid AddressValue (40_command.md R115). -/
abbrev ValidAddr (v : Value) (len : Len) : Prop :=
  (len = 4#5 ∨ len = 16#5) ∧ v.toNat < 2 ^ (8 * len.toNat)

/-- Both operands are valid and of one family (40_command.md R115, R117). -/
abbrev ValidPair (p : Pending) : Prop :=
  ValidAddr p.a p.lenA ∧ ValidAddr p.b p.lenB ∧ p.lenA = p.lenB

/-- The state a successful completion leaves: the written result fields are those `f` changes
(40_command.md R113, R119). -/
def State.afterOk (s : State) (f : Block → Block) : State :=
  { s with
    blk := { f s.blk with err := false, errCode := 0, busy := false, done := true, pending := none } }

/-- The state a completion with error code `code` leaves: no result field is written
(40_command.md R113, 60_exceptions.md R224). -/
def State.afterError (s : State) (code : BitVec 4) : State :=
  { s with
    blk := { s.blk with err := true, errCode := code, busy := false, done := true, pending := none } }

/-- Two blocks hold the same results: R0, R1, RNUM, RLEN, the flags, COUNT and OUT. -/
def Block.SameResults (b c : Block) : Prop :=
  b.r0 = c.r0 ∧ b.r1 = c.r1 ∧ b.rNum = c.rNum ∧ b.rLen = c.rLen ∧ b.cmpLt = c.cmpLt ∧
    b.cmpEq = c.cmpEq ∧ b.cmpGt = c.cmpGt ∧ b.count = c.count ∧ b.out = c.out

/-- Two blocks hold the same operands and command word: A, LEN_A, B, LEN_B and CMD. -/
def Block.SameOperands (b c : Block) : Prop :=
  b.a = c.a ∧ b.lenA = c.lenA ∧ b.b = c.b ∧ b.lenB = c.lenB ∧ b.cmd = c.cmd

/-- What every reachable block satisfies (10_state.md R28 to R34, R38; 40_command.md R111, R113;
60_exceptions.md R220; 44_decompose.md R189). -/
structure Block.Inv (b : Block) : Prop where
  /-- BUSY says whether a command is in flight (R28, R38). -/
  busy_pending : b.busy = b.pending.isSome
  /-- The latched command is the one in CMD and the operand registers (R111, 20_memory.md R67). -/
  latched : ∀ p, b.pending = some p →
    p = { word := b.cmd, a := b.a, lenA := b.lenA, b := b.b, lenB := b.lenB }
  /-- While a command is in flight DONE, ERR and ERRCODE are 0 (R28, R111). -/
  busy_clear : b.busy = true → b.done = false ∧ b.err = false
  /-- ERR says whether ERRCODE is an error (R28, R220). -/
  err_code : b.err = decide (b.errCode ≠ 0#4)
  /-- The codes produced are 0 to 4, 6 and 7 (60_exceptions.md R220, 40_command.md R121). -/
  code_legal : b.errCode.toNat ≤ 7 ∧ b.errCode ≠ 5#4
  /-- At most one comparison flag is 1 (R33). -/
  flags : (b.cmpLt && b.cmpEq) = false ∧ (b.cmpLt && b.cmpGt) = false ∧ (b.cmpEq && b.cmpGt) = false
  /-- RNUM is at most 128 (R32). -/
  rNum_le : b.rNum.toNat ≤ 128
  /-- RLEN is 0 until a command writes it and 4 or 16 after (R32). -/
  rLen_legal : b.rLen = 0#5 ∨ b.rLen = 4#5 ∨ b.rLen = 16#5
  /-- COUNT is at most 254 (R34). -/
  count_le : b.count.toNat ≤ 254

/-- The block's invariant, and the reset state while `rst_n` is low (70_reset_and_hazards.md R260). -/
def State.Inv (s : State) : Prop :=
  s.blk.Inv ∧ (s.rstN = false → s.blk = Block.atReset s.blk.out)

/-- The prefixes `l`, each canonical, tile the addresses from `s` to below `t` in ascending order
without gap or overlap (44_decompose.md R181, 00_scope.md R14 and R16). -/
def Tiles (W : Nat) : (s : Nat) → (l : List Cidr) → (t : Nat) → Prop
  | s, [], t => s = t
  | s, c :: l, t =>
    c.addr = s ∧ c.bits ≤ W ∧ 2 ^ (W - c.bits) ∣ s ∧ Tiles W (s + 2 ^ (W - c.bits)) l t

/-- The address `x` lies in the block of the prefix `c`: it agrees with it on the top BITS bits
(43_expand.md R161). -/
def Cidr.Covers (W : Nat) (c : Cidr) (x : Nat) : Prop :=
  x / 2 ^ (W - c.bits) = c.addr / 2 ^ (W - c.bits)

/-- An entry of OUT read as a prefix. -/
def OutEntry.toCidr (e : OutEntry) : Cidr := { addr := e.addr.toNat, bits := e.bits.toNat }

/-- The decomposition a host reads: the first COUNT entries of OUT (10_state.md R35,
70_reset_and_hazards.md R270). -/
def Block.decomposition (b : Block) : List Cidr :=
  (b.out.toList.take b.count.toNat).map OutEntry.toCidr

/-- The entries below COUNT are canonical prefixes of one family, in ascending order and contiguous
(44_decompose.md R181, R183). -/
def Block.OutTiles (b : Block) : Prop :=
  ∃ W s t, (W = 32 ∨ W = 128) ∧ Tiles W s b.decomposition t

/-- LATENCY as a run has it: the number of steps up to and with the engine's next turn
(00_scope.md R8, 70_reset_and_hazards.md R280; log entry 3). -/
def latency : List Event → Nat
  | [] => 1
  | .engineTurn :: _ => 1
  | _ :: rest => latency rest + 1

/-- The transaction is a soft reset: a full-word write to CTRL with SRST = 1 (20_memory.md R69). -/
def BusTxn.softResets (t : BusTxn) : Bool :=
  t.sel && t.we && target t.off t.be == some .ctrl && t.wdata.getLsbD 1

/-- The transaction an event puts on the host port (20_memory.md R60, R62). -/
def Event.txn : Event → Option BusTxn
  | .port t => some t
  | .system addr we be wdata => some (systemTxn addr we be wdata)
  | .engineTurn | .resetLow | .resetHigh => none

/-- The event abandons a command in flight: `rst_n` low or a soft reset
(70_reset_and_hazards.md R260, R261). -/
def Event.abandons (e : Event) : Bool := e == .resetLow || e.txn.any BusTxn.softResets

/-- The outcome is a next state. -/
def Completes (o : Host.Outcome State Fault Refusal) : Prop := ∃ t, o = .next t

/-- The access is refused, in the terms of 20_memory.md R63, R65, R67 and R68: its shape, a reserved
offset, a write to a read-only register, or a write to an operand register or CMD while busy. -/
def Refused (busy : Bool) (t : BusTxn) : Prop :=
  let n := t.off.toNat
  n % 4 ≠ 0 ∨ t.be ≠ 0b1111#4 ∨
  (0x060 ≤ n ∧ n ≤ 0x0FFF) ∨ (0x3000 ≤ n ∧ n ≤ 0x3FFF) ∨
  (t.we = true ∧ (n = 0x000 ∨ n = 0x018 ∨ n = 0x01C ∨ (0x040 ≤ n ∧ n < 0x060) ∨
    (0x1000 ≤ n ∧ n < 0x3000))) ∨
  (t.we = true ∧ busy = true ∧ (n = 0x008 ∨ n = 0x010 ∨ n = 0x014 ∨ (0x020 ≤ n ∧ n < 0x040)))

/-- The offset is of R_INFO, COUNT, R0, R1, or of an ADDR or BITS word of the output buffer: a read there
while busy returns an unspecified value (20_memory.md R72). -/
def ResultOffset (n : Nat) : Prop :=
  n = 0x018 ∨ n = 0x01C ∨ (0x040 ≤ n ∧ n < 0x060) ∨
    (0x1000 ≤ n ∧ n < 0x3000 ∧ n % 0x20 ≤ 0x10)

/-- A full-word write of `v` at offset `off`. -/
def writeTxn (off : BitVec 14) (v : Word) : BusTxn :=
  { sel := true, we := true, off := off, be := 0b1111#4, wdata := v }

/-- A full-word read at offset `off`. -/
def readTxn (off : BitVec 14) : BusTxn :=
  { sel := true, we := false, off := off, be := 0b1111#4, wdata := 0 }

/-- The command whose operand check is on A alone fails with InvalidAddress where A is not valid, whatever
else is wrong (40_command.md R114, R115). -/
def RejectsBadAddress (i : Instr) : Prop :=
  ∀ (s : State) (p : Pending), s.blk.pending = some p → ¬ ValidAddr p.a p.lenA →
    exec i s = .next (s.afterError 1)

/-- The command on two operands fails with InvalidAddress where A is not valid, then where B is not, then
with FamilyMismatch where the families differ (40_command.md R114, R115, R117). -/
def RejectsBadPair (i : Instr) : Prop :=
  ∀ (s : State) (p : Pending), s.blk.pending = some p →
    (¬ ValidAddr p.a p.lenA → exec i s = .next (s.afterError 1)) ∧
    (ValidAddr p.a p.lenA → ¬ ValidAddr p.b p.lenB → exec i s = .next (s.afterError 1)) ∧
    (ValidAddr p.a p.lenA → ValidAddr p.b p.lenB → p.lenA ≠ p.lenB →
      exec i s = .next (s.afterError 2))

/-- Every word with operation code `opc`, RSVD 0 and any PLEN decodes to the command `i` of that PLEN
(30_encoding.md R90 to R92, R96). -/
def HasOpcode (opc : Nat) (i : Nat → Instr) : Prop :=
  ∀ n < 256, decode (BitVec.ofNat 32 (256 * n + opc)) = .ok (i n)

end Sys2Proof.Machine
end

