-- ==== Sys2Proof/Certificates/Slice0/Obligations.lean ====
section
/-! DEFINITION. The statements for the provers, from the numbered rules of spec/. -/

open Sys2Proof Sys2Proof.Machine

/-! ### Encoding -/

/-- Every well-formed command is read back from its word: no bit of an encoding is dropped
(30_encoding.md R90, R92, R96). -/
def Obligations.DecodeOfEncode : Prop :=
  ∀ i : Instr, WellFormed i = true → decode (encode i) = .ok i

/-- Every legal word is the word of the command it decodes to, so each command has one word
(30_encoding.md R90, R95, R96). -/
def Obligations.EncodeOfDecode : Prop :=
  ∀ (w : Word) (i : Instr), decode w = .ok i → WellFormed i = true ∧ encode i = w

/-- The decoder is total and follows the table of 30_encoding.md R96: RSVD first, then OPC, with PLEN
carried into the command. -/
def Obligations.DecoderFollowsOpcodeMap : Prop :=
  ∀ w : Word,
    let opc := w.toNat % 256
    let p := w.toNat / 256 % 256
    (w.toNat / 65536 ≠ 0 → ∃ r, decode w = .error r) ∧
    (w.toNat / 65536 = 0 →
      (opc = 0x01 → decode w = .ok (.cmp p)) ∧
      (opc = 0x02 → decode w = .ok (.mask2plen p)) ∧
      (opc = 0x03 → decode w = .ok (.plen2mask p)) ∧
      (opc = 0x04 → decode w = .ok (.addrmask2prefix p)) ∧
      (opc = 0x05 → decode w = .ok (.expand p)) ∧
      (opc = 0x06 → decode w = .ok (.netmask p)) ∧
      (opc = 0x07 → decode w = .ok (.canon p)) ∧
      (opc = 0x08 → decode w = .ok (.decompose p)) ∧
      (opc = 0x09 → decode w = .ok (.alignEnd p)) ∧
      (opc = 0x0A → decode w = .ok (.alignStart p)) ∧
      (opc = 0x0B → decode w = .ok (.stepDown p)) ∧
      (opc = 0x0C → decode w = .ok (.stepUp p)) ∧
      (opc = 0x00 ∨ 0x0D ≤ opc → ∃ r, decode w = .error r))

/-- A few words of 95_test_vectors.md section 2.1 decode to the commands it lists. -/
def Obligations.ListedWordsDecode : Prop :=
  decode 0x00001801#32 = .ok (.cmp 24) ∧ decode 0x00002103#32 = .ok (.plen2mask 33) ∧
  decode 0x00001805#32 = .ok (.expand 24) ∧ decode 0x0000AA08#32 = .ok (.decompose 170) ∧
  decode 0x0000000C#32 = .ok (.stepUp 0) ∧ decode 0x0000FF00#32 = .error .zeroOpcode ∧
  decode 0x0000000D#32 = .error .unassignedOpcode ∧ decode 0x00010008#32 = .error .reservedBits

/-- 30_encoding.md R93: a word with OPC 0x00 or 0x0D..0xFF, or with RSVD not 0, is illegal; it is accepted
when written while idle, and completes with IllegalCommand (code 6) and nothing else. -/
def Obligations.IllegalWordCompletes : Prop :=
  ∀ w : Word, (w.toNat % 256 = 0 ∨ 0x0D ≤ w.toNat % 256 ∨ w.toNat / 65536 ≠ 0) →
    (∃ r, decode w = .error r) ∧
    (∀ s : State, s.rstN = true → s.blk.busy = false →
      (s.access (writeTxn 0x008 w)).blk.cmd = w ∧
      (s.access (writeTxn 0x008 w)).blk.busy = true ∧
      (s.access (writeTxn 0x008 w)).blk.pending =
        some { word := w, a := s.blk.a, lenA := s.blk.lenA, b := s.blk.b, lenB := s.blk.lenB }) ∧
    (∀ (s : State) (p : Pending), s.rstN = true → s.blk.pending = some p → p.word = w →
      s.engineTurn = .next (s.afterError 6))

/-- 30_encoding.md R94: the eight commands marked "ignored" give the same result for every PLEN, and the
stored CMD word keeps the value written. -/
def Obligations.PlenIsIgnored : Prop :=
  (∀ (n m : Nat) (s : State),
    exec (.cmp n) s = exec (.cmp m) s ∧ exec (.mask2plen n) s = exec (.mask2plen m) s ∧
    exec (.addrmask2prefix n) s = exec (.addrmask2prefix m) s ∧
    exec (.decompose n) s = exec (.decompose m) s ∧ exec (.alignEnd n) s = exec (.alignEnd m) s ∧
    exec (.alignStart n) s = exec (.alignStart m) s ∧ exec (.stepDown n) s = exec (.stepDown m) s ∧
    exec (.stepUp n) s = exec (.stepUp m) s) ∧
  (∀ (s : State) (w : Word), s.rstN = true → s.blk.busy = false →
    (s.access (writeTxn 0x008 w)).blk.cmd = w) ∧
  ∀ (i : Instr) (s t : State), exec i s = .next t → t.blk.cmd = s.blk.cmd

/-! ### The step -/

/-- A step runs the decoded command, and every other move that is next: with the engine next to move, by an
empty agenda or by its turn on the agenda, step is the engine's turn, and that is exec of the command in
flight, or its completion with IllegalCommand where the word is illegal; a host transaction next on the agenda
is that access of the port; and a word placed for the next step is run by it (40_command.md R112, R113;
20_memory.md R60, R73). Whose turn it is, and how a word is placed, are the model's forms of it (log entries 3
and 8). -/
def Obligations.StepRunsDecodedCommand : Prop :=
  (∀ (s : State) (p : Pending) (i : Instr), s.rstN = true → s.blk.pending = some p →
    decode p.word = .ok i →
    (s.agenda = [] → step s = exec i s) ∧
    (∀ rest, s.agenda = .engineTurn :: rest → step s = exec i { s with agenda := rest })) ∧
  (∀ (s : State) (p : Pending) (r : IllegalWord), s.rstN = true → s.blk.pending = some p →
    decode p.word = .error r →
    (s.agenda = [] → step s = .next (s.afterError 6)) ∧
    (∀ rest, s.agenda = .engineTurn :: rest →
      step s = .next (({ s with agenda := rest } : State).afterError 6))) ∧
  (∀ s : State, (s.agenda = [] → step s = s.engineTurn) ∧
    (∀ rest, s.agenda = .engineTurn :: rest →
      step s = ({ s with agenda := rest } : State).engineTurn) ∧
    ∀ x rest, s.agenda = .port x :: rest →
      step s = .next (({ s with agenda := rest } : State).access x)) ∧
  (∀ (s : State) (w : Word) (i : Instr), decode w = .ok i → s.agenda = [] →
    step (s.withFetchWord 32 w.toNat) = exec i (s.withFetchWord 32 w.toNat) ∧
    (s.withFetchWord 32 w.toNat).blk = s.blk.accept w)

/-- No state makes the machine fault or refuse: AddressConversionError is unreachable, and every other
error and every refused access is a next state (40_command.md R121, 60_exceptions.md R225). -/
def Obligations.StepNeverStops : Prop := ∀ s : State, Completes (step s)

/-- Idleness keeps all state (60_exceptions.md R237): with nothing in flight and nothing on the agenda a
step changes nothing (a turn that passes: log entry 6). -/
def Obligations.IdleKeepsState : Prop :=
  ∀ s : State, s.agenda = [] → s.blk.pending = none → step s = .next s

/-! ### Acceptance and completion -/

/-- 40_command.md R110: a full-word write to CMD while idle is accepted and starts one command, whatever
the word; while busy it is refused and starts nothing. -/
def Obligations.CommandWriteIsAccepted : Prop :=
  ∀ (s : State) (w : Word), s.rstN = true →
    (s.blk.busy = false →
      s.access (writeTxn 0x008 w) =
        { s with
          blk := { s.blk with
            cmd := w, busy := true, done := false, err := false, errCode := 0
            pending := some
              { word := w, a := s.blk.a, lenA := s.blk.lenA, b := s.blk.b, lenB := s.blk.lenB } } }) ∧
    (s.blk.busy = true →
      s.access (writeTxn 0x008 w) = { s with blk := { s.blk with hostErr := true } })

/-- 40_command.md R111: acceptance latches the operands and changes no result register, COUNT, OUT, HOSTERR
or CTRL; a completion reads the latched copy and never the live registers. -/
def Obligations.AcceptanceLatchesOperands : Prop :=
  (∀ (b : Block) (w : Word),
    b.accept w =
      { b with
        cmd := w, busy := true, done := false, err := false, errCode := 0
        pending := some { word := w, a := b.a, lenA := b.lenA, b := b.b, lenB := b.lenB } }) ∧
  ∀ (i : Instr) (s t : State) (a b : Value) (lenA lenB : Len) (w : Word), exec i s = .next t →
    exec i { s with blk := { s.blk with a := a, lenA := lenA, b := b, lenB := lenB, cmd := w } } =
      .next { t with blk := { t.blk with a := a, lenA := lenA, b := b, lenB := lenB, cmd := w } }

/-- 00_scope.md R18 and 60_exceptions.md R224: a completion changes no operand register and no CMD; it
writes results and STATUS only; a command that fails writes no result, and acceptance had changed none. -/
def Obligations.CompletionWritesOnlyResultsAndStatus : Prop :=
  ∀ (s t : State) (p : Pending), s.rstN = true → s.blk.pending = some p →
    s.engineTurn = .next t →
    t.blk.busy = false ∧ t.blk.done = true ∧ t.blk.pending = none ∧
    (t.blk.err = true ↔ t.blk.errCode ≠ 0) ∧
    t.blk.SameOperands s.blk ∧ t.blk.irqEn = s.blk.irqEn ∧ t.blk.hostErr = s.blk.hostErr ∧
    t.rstN = s.rstN ∧ t.agenda = s.agenda ∧ t.returned = s.returned ∧ t.draws = s.draws ∧
    (t.blk.err = true → t.blk.SameResults s.blk) ∧
    ∀ w : Word, (s.blk.accept w).SameResults s.blk

/-! ### The commands -/

/-- 41_address.md R130: CMP. -/
def Obligations.CmpCompares : Prop :=
  HasOpcode 0x01 .cmp ∧ ∀ plen, RejectsBadPair (.cmp plen) ∧
    ∀ (s : State) (p : Pending), s.blk.pending = some p → ValidPair p →
      exec (.cmp plen) s = .next (s.afterOk fun b => { b with
        cmpLt := decide (p.a.toNat < p.b.toNat)
        cmpEq := decide (p.a.toNat = p.b.toNat)
        cmpGt := decide (p.b.toNat < p.a.toNat) })

/-- 42_mask.md R140, R141: MASK2PLEN gives the length of a mask, and an error for every other pattern. -/
def Obligations.Mask2plenMeasuresMask : Prop :=
  HasOpcode 0x02 .mask2plen ∧ ∀ plen, RejectsBadAddress (.mask2plen plen) ∧
    ∀ (s : State) (p : Pending), s.blk.pending = some p → ValidAddr p.a p.lenA →
      let W := 8 * p.lenA.toNat
      (∀ n ≤ W, p.a.toNat = 2 ^ W - 2 ^ (W - n) →
        exec (.mask2plen plen) s = .next (s.afterOk fun b => { b with
          rNum := BitVec.ofNat 8 n, rLen := p.lenA })) ∧
      ((∀ n ≤ W, p.a.toNat ≠ 2 ^ W - 2 ^ (W - n)) →
        exec (.mask2plen plen) s = .next (s.afterError 4))

/-- 42_mask.md R143: PLEN2MASK reads LEN_A and PLEN alone. -/
def Obligations.Plen2maskBuildsMask : Prop :=
  HasOpcode 0x03 .plen2mask ∧
    ∀ (plen : Nat) (s : State) (p : Pending), s.blk.pending = some p →
      let W := 8 * p.lenA.toNat
      (¬ (p.lenA = 4#5 ∨ p.lenA = 16#5) → exec (.plen2mask plen) s = .next (s.afterError 1)) ∧
      ((p.lenA = 4#5 ∨ p.lenA = 16#5) → W < plen →
        exec (.plen2mask plen) s = .next (s.afterError 7)) ∧
      ((p.lenA = 4#5 ∨ p.lenA = 16#5) → plen ≤ W →
        exec (.plen2mask plen) s = .next (s.afterOk fun b => { b with
          r0 := BitVec.ofNat 128 (2 ^ W - 2 ^ (W - plen))
          rNum := BitVec.ofNat 8 plen, rLen := p.lenA }))

/-- 42_mask.md R146: ADDRMASK2PREFIX pairs the address, kept as it is, with the length of the mask. -/
def Obligations.Addrmask2prefixPairs : Prop :=
  HasOpcode 0x04 .addrmask2prefix ∧ ∀ plen, RejectsBadPair (.addrmask2prefix plen) ∧
    ∀ (s : State) (p : Pending), s.blk.pending = some p → ValidPair p →
      let W := 8 * p.lenA.toNat
      (∀ n ≤ W, p.b.toNat = 2 ^ W - 2 ^ (W - n) →
        exec (.addrmask2prefix plen) s = .next (s.afterOk fun b => { b with
          r0 := p.a, rNum := BitVec.ofNat 8 n, rLen := p.lenA })) ∧
      ((∀ n ≤ W, p.b.toNat ≠ 2 ^ W - 2 ^ (W - n)) →
        exec (.addrmask2prefix plen) s = .next (s.afterError 4))

/-- 43_expand.md R160: EXPAND gives the first and the last address of the prefix's block. -/
def Obligations.ExpandGivesBlock : Prop :=
  HasOpcode 0x05 .expand ∧ ∀ plen, RejectsBadAddress (.expand plen) ∧
    ∀ (s : State) (p : Pending), s.blk.pending = some p → ValidAddr p.a p.lenA →
      let W := 8 * p.lenA.toNat
      (W < plen → exec (.expand plen) s = .next (s.afterError 7)) ∧
      (plen ≤ W →
        let first := p.a.toNat / 2 ^ (W - plen) * 2 ^ (W - plen)
        exec (.expand plen) s = .next (s.afterOk fun b => { b with
          r0 := BitVec.ofNat 128 first
          r1 := BitVec.ofNat 128 (first + 2 ^ (W - plen) - 1)
          rNum := BitVec.ofNat 8 plen, rLen := p.lenA }))

/-- 43_expand.md R163: NETMASK. -/
def Obligations.NetmaskGivesMask : Prop :=
  HasOpcode 0x06 .netmask ∧ ∀ plen, RejectsBadAddress (.netmask plen) ∧
    ∀ (s : State) (p : Pending), s.blk.pending = some p → ValidAddr p.a p.lenA →
      let W := 8 * p.lenA.toNat
      (W < plen → exec (.netmask plen) s = .next (s.afterError 7)) ∧
      (plen ≤ W →
        exec (.netmask plen) s = .next (s.afterOk fun b => { b with
          r0 := BitVec.ofNat 128 (2 ^ W - 2 ^ (W - plen))
          rNum := BitVec.ofNat 8 plen, rLen := p.lenA }))

/-- 43_expand.md R166: CANON clears the host bits. -/
def Obligations.CanonClearsHostBits : Prop :=
  HasOpcode 0x07 .canon ∧ ∀ plen, RejectsBadAddress (.canon plen) ∧
    ∀ (s : State) (p : Pending), s.blk.pending = some p → ValidAddr p.a p.lenA →
      let W := 8 * p.lenA.toNat
      (W < plen → exec (.canon plen) s = .next (s.afterError 7)) ∧
      (plen ≤ W →
        exec (.canon plen) s = .next (s.afterOk fun b => { b with
          r0 := BitVec.ofNat 128 (p.a.toNat / 2 ^ (W - plen) * 2 ^ (W - plen))
          rNum := BitVec.ofNat 8 plen, rLen := p.lenA }))

/-- 44_decompose.md R195: ALIGN_END, the largest aligned block that ends at the cursor. -/
def Obligations.AlignEndMeasures : Prop :=
  HasOpcode 0x09 .alignEnd ∧ ∀ plen, RejectsBadAddress (.alignEnd plen) ∧
    ∀ (s : State) (p : Pending), s.blk.pending = some p → ValidAddr p.a p.lenA →
      ∃ n ≤ 8 * p.lenA.toNat,
        (∀ j ≤ 8 * p.lenA.toNat, 2 ^ j ∣ p.a.toNat + 1 ↔ j ≤ n) ∧
        exec (.alignEnd plen) s = .next (s.afterOk fun b => { b with
          rNum := BitVec.ofNat 8 n, rLen := p.lenA })

/-- 44_decompose.md R198: ALIGN_START, the largest aligned block that begins at the address. -/
def Obligations.AlignStartMeasures : Prop :=
  HasOpcode 0x0A .alignStart ∧ ∀ plen, RejectsBadAddress (.alignStart plen) ∧
    ∀ (s : State) (p : Pending), s.blk.pending = some p → ValidAddr p.a p.lenA →
      ∃ n ≤ 8 * p.lenA.toNat,
        (∀ j ≤ 8 * p.lenA.toNat, 2 ^ j ∣ p.a.toNat ↔ j ≤ n) ∧
        exec (.alignStart plen) s = .next (s.afterOk fun b => { b with
          rNum := BitVec.ofNat 8 n, rLen := p.lenA })

/-- 44_decompose.md R201: STEP_DOWN, the largest aligned block that ends at the cursor B and does not start
below A. -/
def Obligations.StepDownTakesBlock : Prop :=
  HasOpcode 0x0B .stepDown ∧ ∀ plen, RejectsBadPair (.stepDown plen) ∧
    ∀ (s : State) (p : Pending), s.blk.pending = some p → ValidPair p →
      let W := 8 * p.lenA.toNat
      (p.b.toNat < p.a.toNat → exec (.stepDown plen) s = .next (s.afterError 3)) ∧
      (p.a.toNat ≤ p.b.toNat → ∃ n ≤ W,
        (∀ j ≤ W, (2 ^ j ∣ p.b.toNat + 1 ∧ p.a.toNat + 2 ^ j ≤ p.b.toNat + 1) ↔ j ≤ n) ∧
        exec (.stepDown plen) s = .next (s.afterOk fun b => { b with
          r0 := BitVec.ofNat 128 (p.b.toNat + 1 - 2 ^ n), r1 := p.b
          rNum := BitVec.ofNat 8 (W - n), rLen := p.lenA }))

/-- 44_decompose.md R205: STEP_UP, the largest aligned block that starts at A and does not pass B. -/
def Obligations.StepUpTakesBlock : Prop :=
  HasOpcode 0x0C .stepUp ∧ ∀ plen, RejectsBadPair (.stepUp plen) ∧
    ∀ (s : State) (p : Pending), s.blk.pending = some p → ValidPair p →
      let W := 8 * p.lenA.toNat
      (p.b.toNat < p.a.toNat → exec (.stepUp plen) s = .next (s.afterError 3)) ∧
      (p.a.toNat ≤ p.b.toNat → ∃ n ≤ W,
        (∀ j ≤ W, (2 ^ j ∣ p.a.toNat ∧ p.a.toNat + 2 ^ j ≤ p.b.toNat + 1) ↔ j ≤ n) ∧
        exec (.stepUp plen) s = .next (s.afterOk fun b => { b with
          r0 := p.a, r1 := BitVec.ofNat 128 (p.a.toNat + 2 ^ n - 1)
          rNum := BitVec.ofNat 8 (W - n), rLen := p.lenA }))

/-! ### DECOMPOSE -/

/-- Where DECOMPOSE fails (44_decompose.md R180, its exceptions), and the word it is run by. -/
def Obligations.DecomposeRejects : Prop :=
  HasOpcode 0x08 .decompose ∧ ∀ plen, RejectsBadPair (.decompose plen) ∧
    ∀ (s : State) (p : Pending), s.blk.pending = some p → ValidPair p →
      p.b.toNat < p.a.toNat → exec (.decompose plen) s = .next (s.afterError 3)

/-- 44_decompose.md R181: DECOMPOSE completes on every range, its prefixes tile `[A, B]` exactly, in
ascending order, and no list of prefixes whose blocks together are exactly `[A, B]` is shorter. -/
def Obligations.DecomposeTilesMinimally : Prop :=
  ∀ (plen : Nat) (s : State) (p : Pending), s.blk.pending = some p → ValidPair p →
    p.a.toNat ≤ p.b.toNat →
    ∃ t, exec (.decompose plen) s = .next t ∧ t.blk.err = false ∧
      t.blk.decomposition.length = t.blk.count.toNat ∧
      Tiles (8 * p.lenA.toNat) p.a.toNat t.blk.decomposition (p.b.toNat + 1) ∧
      ∀ l : List Cidr, (∀ c ∈ l, c.bits ≤ 8 * p.lenA.toNat) →
        (∀ x, (∃ c ∈ l, c.Covers (8 * p.lenA.toNat) x) ↔ p.a.toNat ≤ x ∧ x ≤ p.b.toNat) →
        t.blk.decomposition.length ≤ l.length

/-- 44_decompose.md R187 with DECOMPOSE's frame: it writes OUT below COUNT, in ascending order and with
BITS in 0..W, COUNT and RLEN = LEN_A, keeps the entries from COUNT on, and changes nothing else but the
STATUS fields a completion changes. -/
def Obligations.DecomposeWritesBelowCount : Prop :=
  ∀ (plen : Nat) (s : State) (p : Pending), s.blk.pending = some p → ValidPair p →
    p.a.toNat ≤ p.b.toNat →
    ∃ t, exec (.decompose plen) s = .next t ∧
      t = s.afterOk (fun b => { b with
        out := t.blk.out, count := t.blk.count, rLen := p.lenA }) ∧
      (∀ i j : Fin 256, i < j → j.val < t.blk.count.toNat →
        (t.blk.out[i]).addr.toNat < (t.blk.out[j]).addr.toNat) ∧
      (∀ i : Fin 256, i.val < t.blk.count.toNat → (t.blk.out[i]).bits.toNat ≤ 8 * p.lenA.toNat) ∧
      ∀ i : Fin 256, t.blk.count.toNat ≤ i.val → t.blk.out[i] = s.blk.out[i]

/-- 44_decompose.md R182 (an inference the spec marks "derived: from rule R181 and rule R16"): the prefixes
are exactly the maximal aligned blocks of `[A, B]`, and every tiling that is no longer is the same list. -/
def Obligations.DecomposeIsUnique : Prop :=
  ∀ (plen : Nat) (s t : State) (p : Pending), s.blk.pending = some p → ValidPair p →
    p.a.toNat ≤ p.b.toNat → exec (.decompose plen) s = .next t →
    let W := 8 * p.lenA.toNat
    (∀ c : Cidr, c ∈ t.blk.decomposition ↔
      c.bits ≤ W ∧ 2 ^ (W - c.bits) ∣ c.addr ∧ p.a.toNat ≤ c.addr ∧
      c.addr + 2 ^ (W - c.bits) ≤ p.b.toNat + 1 ∧
      ∀ n ≤ W, W - c.bits < n →
        ¬ (p.a.toNat ≤ c.addr / 2 ^ n * 2 ^ n ∧
          c.addr / 2 ^ n * 2 ^ n + 2 ^ n ≤ p.b.toNat + 1)) ∧
    ∀ l, Tiles W p.a.toNat l (p.b.toNat + 1) → l.length ≤ t.blk.decomposition.length →
      l = t.blk.decomposition

/-- 44_decompose.md R189 (an inference the spec marks "derived: from rule R182 and rule R188"): COUNT is at
least 1 and at most 2W - 2, which the range `[1, 2^W - 2]` reaches. -/
def Obligations.DecomposeCountIsBounded : Prop :=
  ∀ (plen : Nat) (s t : State) (p : Pending), s.blk.pending = some p → ValidPair p →
    p.a.toNat ≤ p.b.toNat → exec (.decompose plen) s = .next t →
    let W := 8 * p.lenA.toNat
    1 ≤ t.blk.count.toNat ∧ t.blk.count.toNat ≤ 2 * W - 2 ∧
    (p.a.toNat = 1 → p.b.toNat = 2 ^ W - 2 → t.blk.count.toNat = 2 * W - 2)

/-- 44_decompose.md R188 (an inference the spec marks "derived: from rule R180"): the host-bit counts rise
strictly, may repeat their peak once, and then fall strictly. -/
def Obligations.DecomposeSizesAreUnimodal : Prop :=
  ∀ (plen : Nat) (s t : State) (p : Pending), s.blk.pending = some p → ValidPair p →
    p.a.toNat ≤ p.b.toNat → exec (.decompose plen) s = .next t →
    ∃ up down : List Nat,
      t.blk.decomposition.map (fun c => 8 * p.lenA.toNat - c.bits) = up ++ down ∧
      up.Pairwise (· < ·) ∧ down.Pairwise (· > ·)

/-- 44_decompose.md R190: DECOMPOSE is a function of A, LEN_A, B and LEN_B alone. -/
def Obligations.DecomposeIsPure : Prop :=
  ∀ (n m : Nat) (s1 s2 t1 t2 : State) (p1 p2 : Pending),
    s1.blk.pending = some p1 → s2.blk.pending = some p2 →
    p1.a = p2.a → p1.lenA = p2.lenA → p1.b = p2.b → p1.lenB = p2.lenB →
    exec (.decompose n) s1 = .next t1 → exec (.decompose m) s2 = .next t2 →
    t1.blk.err = t2.blk.err ∧ t1.blk.errCode = t2.blk.errCode ∧
    (t1.blk.err = false → t1.blk.count = t2.blk.count ∧
      ∀ i : Fin 256, i.val < t1.blk.count.toNat → t1.blk.out[i] = t2.blk.out[i])

/-- One turn of the loop of 44_decompose.md R206 (an inference the spec marks "derived: from rule R180 and
rule R205"): STEP_UP gives DECOMPOSE's first prefix, and DECOMPOSE from the address after it gives the rest, so the host's loop
of STEP_UP yields DECOMPOSE's list. -/
def Obligations.StepUpLoopIsDecompose : Prop :=
  ∀ (n m k : Nat) (s t u : State) (p : Pending), s.blk.pending = some p → ValidPair p →
    p.a.toNat ≤ p.b.toNat → exec (.stepUp n) s = .next t → exec (.decompose m) s = .next u →
    (t.blk.r1 = p.b →
      u.blk.decomposition = [{ addr := t.blk.r0.toNat, bits := t.blk.rNum.toNat }]) ∧
    (t.blk.r1 ≠ p.b → ∀ s' : State, s'.blk.pending = some { p with a := t.blk.r1 + 1 } →
      ∃ v, exec (.decompose k) s' = .next v ∧ v.blk.err = false ∧
        u.blk.decomposition =
          { addr := t.blk.r0.toNat, bits := t.blk.rNum.toNat } :: v.blk.decomposition)

/-- One turn of the loop of 44_decompose.md R202, R184 (inferences the spec marks "derived"): STEP_DOWN gives DECOMPOSE's last
prefix, and DECOMPOSE up to the address before it gives the ones before, so the backward loop yields the
same list in descending order. -/
def Obligations.StepDownLoopIsDecompose : Prop :=
  ∀ (n m k : Nat) (s t u : State) (p : Pending), s.blk.pending = some p → ValidPair p →
    p.a.toNat ≤ p.b.toNat → exec (.stepDown n) s = .next t → exec (.decompose m) s = .next u →
    (t.blk.r0 = p.a →
      u.blk.decomposition = [{ addr := t.blk.r0.toNat, bits := t.blk.rNum.toNat }]) ∧
    (t.blk.r0 ≠ p.a → ∀ s' : State, s'.blk.pending = some { p with b := t.blk.r0 - 1 } →
      ∃ v, exec (.decompose k) s' = .next v ∧ v.blk.err = false ∧
        u.blk.decomposition =
          v.blk.decomposition ++ [{ addr := t.blk.r0.toNat, bits := t.blk.rNum.toNat }])

/-! ### Laws between the commands -/

/-- 42_mask.md R142 (its 128-bit case and its converse are marked "derived"): MASK2PLEN of PLEN2MASK's mask
is the prefix length, in either family. -/
def Obligations.MaskRoundTrip : Prop :=
  ∀ (plen n : Nat) (s t s' : State) (p p' : Pending), s.blk.pending = some p →
    (p.lenA = 4#5 ∨ p.lenA = 16#5) → plen ≤ 8 * p.lenA.toNat →
    exec (.plen2mask plen) s = .next t →
    s'.blk.pending = some p' → p'.a = t.blk.r0 → p'.lenA = p.lenA →
    ∃ u, exec (.mask2plen n) s' = .next u ∧ u.blk.err = false ∧ u.blk.rNum.toNat = plen ∧
      u.blk.rLen = p.lenA

/-- 43_expand.md R162 and R164 (inferences the spec marks "derived"): EXPAND, CANON, NETMASK and PLEN2MASK
agree on the same operands. -/
def Obligations.ExpandCanonNetmaskAgree : Prop :=
  ∀ (plen : Nat) (s : State) (p : Pending), s.blk.pending = some p → ValidAddr p.a p.lenA →
    plen ≤ 8 * p.lenA.toNat →
    ∃ e c m q, exec (.expand plen) s = .next e ∧ exec (.canon plen) s = .next c ∧
      exec (.netmask plen) s = .next m ∧ exec (.plen2mask plen) s = .next q ∧
      e.blk.r0 = c.blk.r0 ∧ m.blk.r0 = q.blk.r0 ∧
      e.blk.r1.toNat = e.blk.r0.toNat ||| (2 ^ (8 * p.lenA.toNat) - 1 - m.blk.r0.toNat)

/-- 43_expand.md R161 (an inference the spec marks "derived"): `[R0, R1]` is the block of the prefix: the
addresses that agree with A on the top PLEN bits, 2^(W - PLEN) of them. -/
def Obligations.ExpandIntervalIsBlock : Prop :=
  ∀ (plen : Nat) (s t : State) (p : Pending), s.blk.pending = some p → ValidAddr p.a p.lenA →
    plen ≤ 8 * p.lenA.toNat → exec (.expand plen) s = .next t →
    let W := 8 * p.lenA.toNat
    t.blk.r0.toNat ≤ t.blk.r1.toNat ∧ t.blk.r1.toNat < 2 ^ W ∧
    t.blk.r1.toNat - t.blk.r0.toNat + 1 = 2 ^ (W - plen) ∧
    ∀ x < 2 ^ W, (t.blk.r0.toNat ≤ x ∧ x ≤ t.blk.r1.toNat ↔
      x / 2 ^ (W - plen) = p.a.toNat / 2 ^ (W - plen))

/-- 43_expand.md R167 (an inference the spec marks "derived"): CANON's result is at most A, has zero host
bits, and running CANON on it gives it back. -/
def Obligations.CanonIsIdempotent : Prop :=
  ∀ (plen : Nat) (s t s' : State) (p p' : Pending), s.blk.pending = some p → ValidAddr p.a p.lenA →
    plen ≤ 8 * p.lenA.toNat → exec (.canon plen) s = .next t →
    t.blk.r0.toNat ≤ p.a.toNat ∧ t.blk.r0.toNat % 2 ^ (8 * p.lenA.toNat - plen) = 0 ∧
    (s'.blk.pending = some p' → p'.a = t.blk.r0 → p'.lenA = p.lenA →
      ∃ u, exec (.canon plen) s' = .next u ∧ u.blk.r0 = t.blk.r0 ∧ u.blk.err = false)

/-- 44_decompose.md R186 (an inference the spec marks "derived"): the alignment at an end address is the
alignment at the start of its complement within W bits. -/
def Obligations.AlignmentsAreDual : Prop :=
  ∀ (n m : Nat) (s s' : State) (p p' : Pending), s.blk.pending = some p →
    s'.blk.pending = some p' → ValidAddr p.a p.lenA → p'.lenA = p.lenA →
    p'.a.toNat = 2 ^ (8 * p.lenA.toNat) - 1 - p.a.toNat →
    ∃ t u, exec (.alignEnd n) s = .next t ∧ exec (.alignStart m) s' = .next u ∧
      t.blk.err = false ∧ u.blk.err = false ∧ t.blk.rNum = u.blk.rNum

/-! ### The host port -/

/-- 20_memory.md R64: a refused access sets HOSTERR, a refused read returns 0, and nothing else happens. -/
def Obligations.RefusedAccessSetsHostErr : Prop :=
  ∀ (s : State) (x : BusTxn), s.rstN = true → x.sel = true → Refused s.blk.busy x →
    s.access x = { s with
      blk := { s.blk with hostErr := true }
      returned := if x.we then s.returned else 0 :: s.returned }

/-- 20_memory.md R71: no read that is not refused has a side effect, and two reads in a row of the same
register while idle return the same word. -/
def Obligations.ReadsHaveNoSideEffect : Prop :=
  ∀ (s : State) (x : BusTxn), s.rstN = true → x.sel = true → x.we = false →
    ¬ Refused s.blk.busy x →
    (s.access x).blk = s.blk ∧ (s.access x).rstN = s.rstN ∧ (s.access x).agenda = s.agenda ∧
    (s.blk.busy = false → ∃ v, (s.access x).returned = v :: s.returned ∧
      ((s.access x).access x).returned = v :: v :: s.returned)

/-- 20_memory.md R72: while busy a read of R0, R1, R_INFO, COUNT, or an ADDR or BITS word of OUT returns the
next unspecified word, and a read of any other register its state value; while idle every read returns the
state value. An unspecified word is the next of an opaque sequence (log entry 1). -/
def Obligations.ReadsReturnStateOrFreeValue : Prop :=
  ∀ (s : State) (r : Reg), s.rstN = true →
    (s.blk.busy = true → ResultOffset r.offset.toNat →
      s.access (readTxn r.offset) =
        { s with returned := Config.freeWord s.draws :: s.returned, draws := s.draws + 1 }) ∧
    (s.blk.busy = true →
      r ∈ [.id, .ctrl, .cmd, .status, .lenA, .lenB] ∨ (∃ k, r = .aW k ∨ r = .bW k) →
      s.access (readTxn r.offset) = { s with returned := s.blk.readReg r :: s.returned }) ∧
    (s.blk.busy = false →
      s.access (readTxn r.offset) = { s with returned := s.blk.readReg r :: s.returned })

/-- The words the registers read as: every field at the bits of 10_state.md R23, reserved bits 0 (R37), and
CMD exactly as it is stored, its RSVD bits too (R30). -/
def Obligations.RegisterWordsHoldFields : Prop :=
  ∀ b : Block,
    b.readReg .id = 0x54430007#32 ∧
    b.readReg .cmd = b.cmd ∧
    (b.readReg .ctrl).toNat = b.irqEn.toNat ∧
    (b.readReg .status).toNat =
      b.busy.toNat + 2 * b.done.toNat + 4 * b.err.toNat + 8 * b.hostErr.toNat +
        256 * b.errCode.toNat ∧
    (b.readReg .lenA).toNat = b.lenA.toNat ∧ (b.readReg .lenB).toNat = b.lenB.toNat ∧
    (b.readReg .rInfo).toNat =
      b.rNum.toNat + 256 * b.rLen.toNat + 65536 * b.cmpLt.toNat + 131072 * b.cmpEq.toNat +
        262144 * b.cmpGt.toNat ∧
    (b.readReg .count).toNat = b.count.toNat ∧
    (∀ k : Fin 4,
      (b.readReg (.aW k)).toNat = b.a.toNat / 2 ^ (32 * k.val) % 2 ^ 32 ∧
      (b.readReg (.bW k)).toNat = b.b.toNat / 2 ^ (32 * k.val) % 2 ^ 32 ∧
      (b.readReg (.r0W k)).toNat = b.r0.toNat / 2 ^ (32 * k.val) % 2 ^ 32 ∧
      (b.readReg (.r1W k)).toNat = b.r1.toNat / 2 ^ (32 * k.val) % 2 ^ 32) ∧
    ∀ (i : Fin 256) (k : Fin 4) (j : Fin 3),
      (b.readReg (.outAddr i k)).toNat = (b.out[i]).addr.toNat / 2 ^ (32 * k.val) % 2 ^ 32 ∧
      (b.readReg (.outBits i)).toNat = (b.out[i]).bits.toNat ∧
      b.readReg (.outReserved i j) = 0

/-- 20_memory.md R66: a write to an operand register while idle stores the word's defined bits, keeps the
other words of A and B, and starts no command. -/
def Obligations.OperandWritesStore : Prop :=
  ∀ (s : State) (v : Word), s.rstN = true → s.blk.busy = false →
    s.access (writeTxn 0x010 v) =
      { s with blk := { s.blk with lenA := BitVec.ofNat 5 (v.toNat % 32) } } ∧
    s.access (writeTxn 0x014 v) =
      { s with blk := { s.blk with lenB := BitVec.ofNat 5 (v.toNat % 32) } } ∧
    ∀ k : Fin 4,
      (∃ a : Value, s.access (writeTxn (BitVec.ofNat 14 (0x020 + 4 * k.val)) v) =
          { s with blk := { s.blk with a := a } } ∧
        wordOf a k = v ∧ ∀ j : Fin 4, j ≠ k → wordOf a j = wordOf s.blk.a j) ∧
      (∃ b : Value, s.access (writeTxn (BitVec.ofNat 14 (0x030 + 4 * k.val)) v) =
          { s with blk := { s.blk with b := b } } ∧
        wordOf b k = v ∧ ∀ j : Fin 4, j ≠ k → wordOf b j = wordOf s.blk.b j)

/-- 20_memory.md R69: writes of CTRL and STATUS, idle or busy (10_state.md R28, R29). -/
def Obligations.ControlAndStatusWrites : Prop :=
  ∀ (s : State) (v : Word), s.rstN = true →
    (v.getLsbD 1 = true →
      s.access (writeTxn 0x004 v) = { s with blk := Block.atReset s.blk.out }) ∧
    (v.getLsbD 1 = false →
      s.access (writeTxn 0x004 v) = { s with blk := { s.blk with irqEn := v.getLsbD 0 } }) ∧
    s.access (writeTxn 0x00C v) = { s with
      blk := { s.blk with
        done := if v.getLsbD 1 then false else s.blk.done
        hostErr := if v.getLsbD 3 then false else s.blk.hostErr } }

/-- 70_reset_and_hazards.md R261: a write of CTRL with SRST = 1 resets every register but OUT, idle or
busy; a pending command is abandoned and DONE is not set. -/
def Obligations.SoftResetKeepsOnlyOut : Prop :=
  ∀ (s : State) (v : Word), s.rstN = true → v.getLsbD 1 = true →
    s.access (writeTxn 0x004 v) = { s with
      blk := {
        a := 0, lenA := 0, b := 0, lenB := 0, cmd := 0, irqEn := false, busy := false
        done := false, err := false, errCode := 0, hostErr := false, r0 := 0, r1 := 0
        rNum := 0, rLen := 0, cmpLt := false, cmpEq := false, cmpGt := false, count := 0
        out := s.blk.out, pending := none } }

/-- 70_reset_and_hazards.md R260: hardware reset, at the step where rst_n goes low and at the step where it
is released, for whatever contents OUT then has; while it is low the engine does not move, no transaction
changes the block, a write has no effect and a read returns an unspecified word (forms the model chose:
the pin's events, log entry 10; the word, log entry 1; the engine's passing turn, log entry 6). -/
def Obligations.HardwareResetState : Prop :=
  (∀ (s : State) (e : Event) (rest : List Event), s.agenda = e :: rest →
    (e = .resetLow ∨ (e = .resetHigh ∧ s.rstN = false)) →
    ∃ t out, step s = .next t ∧ t.rstN = (e == .resetHigh) ∧ t.agenda = rest ∧
      t.returned = s.returned ∧
      t.blk = {
        a := 0, lenA := 0, b := 0, lenB := 0, cmd := 0, irqEn := false, busy := false
        done := false, err := false, errCode := 0, hostErr := false, r0 := 0, r1 := 0
        rNum := 0, rLen := 0, cmpLt := false, cmpEq := false, cmpGt := false, count := 0
        out := out, pending := none }) ∧
  (∀ s : State, s.rstN = false → s.engineTurn = .next s) ∧
  ∀ (s : State) (x : BusTxn), s.rstN = false → x.sel = true →
    (x.we = true → s.access x = s) ∧
    (x.we = false → (s.access x).blk = s.blk ∧
      (s.access x).returned = Config.freeWord s.draws :: s.returned)

/-- The state after reset is idle with its interrupt disabled and its line low, and it runs nothing until
the host writes CMD (70_reset_and_hazards.md R263, 60_exceptions.md R231; OUT is whatever the launch left,
R262). That rst_n is high and the agenda empty after reset is the model's choice (log entries 10 and 4). -/
def Obligations.ResetIsIdle : Prop :=
  State.reset.blk.busy = false ∧ State.reset.blk.pending = none ∧ State.reset.blk.irqEn = false ∧
  State.reset.blk.irq = false ∧ State.reset.blk.lenA = 0 ∧ State.reset.blk.count = 0 ∧
  State.reset.rstN = true ∧ step State.reset = .next State.reset

/-- No register is aliased, and every word-aligned offset that is not reserved is a register's
(10_state.md R22, R23; 20_memory.md R65). -/
def Obligations.RegisterMapIsOneToOne : Prop :=
  (∀ r r' : Reg, r.offset = r'.offset → r = r') ∧
  ∀ off : BitVec 14, off.toNat % 4 = 0 →
    ((∃ r : Reg, r.offset = off) ↔
      off.toNat < 0x060 ∨ (0x1000 ≤ off.toNat ∧ off.toNat < 0x3000))

/-- 20_memory.md R62: a transaction whose system address lies outside the window has no effect on the
block, and one inside it is the port's transaction at its offset from BASE. -/
def Obligations.SystemAddressDecodes : Prop :=
  ∀ (s : State) (rest : List Event) (addr : Nat) (we : Bool) (be : BitVec 4) (v : Word),
    s.agenda = .system addr we be v :: rest →
    (addr < Config.base ∨ Config.base + 0x4000 ≤ addr → step s = .next { s with agenda := rest }) ∧
    (∀ off : BitVec 14, addr = Config.base + off.toNat →
      step s = .next (({ s with agenda := rest } : State).access
        { sel := true, we := we, off := off, be := be, wdata := v }))

/-- 60_exceptions.md R230: irq is DONE and IRQ_EN; a completion asserts it while IRQ_EN = 1, successful or
failed; a W1C write of DONE, an acceptance, a reset and IRQ_EN written 0 deassert it. -/
def Obligations.InterruptFollowsDone : Prop :=
  (∀ b : Block, b.irq = true ↔ b.done = true ∧ b.irqEn = true) ∧
  (∀ (s t : State) (p : Pending), s.rstN = true → s.blk.pending = some p →
    s.engineTurn = .next t → t.blk.irq = s.blk.irqEn) ∧
  (∀ (s : State) (v : Word), s.rstN = true →
    (v.getLsbD 1 = true → (s.access (writeTxn 0x00C v)).blk.irq = false) ∧
    (v.getLsbD 0 = false → (s.access (writeTxn 0x004 v)).blk.irq = false) ∧
    (v.getLsbD 1 = true → (s.access (writeTxn 0x004 v)).blk.irq = false) ∧
    (s.blk.busy = false → (s.access (writeTxn 0x008 v)).blk.irq = false)) ∧
  (∀ (s t : State) (rest : List Event), s.agenda = .resetLow :: rest → step s = .next t →
    t.blk.irq = false)

/-- 60_exceptions.md R227: a refused access changes no ERR, ERRCODE, DONE, BUSY or irq, and HOSTERR stays
set until the host writes 1 to STATUS bit 3 or a reset occurs. -/
def Obligations.HostErrIsSticky : Prop :=
  (∀ (s : State) (x : BusTxn), s.rstN = true → x.sel = true → Refused s.blk.busy x →
    (s.access x).blk.hostErr = true ∧ (s.access x).blk.err = s.blk.err ∧
    (s.access x).blk.errCode = s.blk.errCode ∧ (s.access x).blk.done = s.blk.done ∧
    (s.access x).blk.busy = s.blk.busy ∧ (s.access x).blk.irq = s.blk.irq) ∧
  ∀ s t : State, step s = .next t → s.blk.hostErr = true → t.blk.hostErr = false →
    ∃ e rest, s.agenda = e :: rest ∧
      (e.abandons = true ∨ e = .resetHigh ∨
        ∃ x : BusTxn, e.txn = some x ∧ x.sel = true ∧ x.we = true ∧ x.off = 0x00C ∧
          x.be = 0b1111#4 ∧ x.wdata.getLsbD 3 = true)

/-- Who writes what (10_state.md R22, R28; 00_scope.md R18): a step that changes a result or raises DONE
is the completion of the command in flight or, for a result, a reset; a step that changes an operand or CMD
is a host transaction or a reset. -/
def Obligations.EngineWritesResultsHostWritesOperands : Prop :=
  ∀ s t : State, step s = .next t →
    (¬ t.blk.SameResults s.blk →
      (s.blk.pending.isSome = true ∧ t.blk.pending = none ∧ t.blk.done = true ∧
        t.blk.SameOperands s.blk) ∨
      ∃ e rest, s.agenda = e :: rest ∧ (e.abandons = true ∨ e = .resetHigh)) ∧
    (s.blk.done = false → t.blk.done = true →
      s.blk.pending.isSome = true ∧ t.blk.pending = none ∧ t.blk.SameOperands s.blk) ∧
    (¬ t.blk.SameOperands s.blk →
      ∃ e rest, s.agenda = e :: rest ∧ e ≠ .engineTurn)

/-- 40_command.md R112, 70_reset_and_hazards.md R273: a command in flight completes at the engine's next
turn, after as many steps as the run's latency, unless a reset intervenes. That the engine does take a turn
is the fairness the agenda stands for (log entry 3). -/
def Obligations.AcceptedCommandCompletes : Prop :=
  ∀ (s : State) (p : Pending), s.rstN = true → s.blk.busy = true → s.blk.pending = some p →
    (∀ e ∈ s.agenda.take (latency s.agenda - 1), e.abandons = false) →
    ∃ t : State, core.run (latency s.agenda) s = .next t ∧ t.blk.busy = false ∧
      t.blk.done = true ∧ t.blk.pending = none

/-- A write of A_W0 races the engine (20_memory.md R67 and R73, 70_reset_and_hazards.md R271): before the
completion it is refused and lost, after it the word is stored; both orders are runs of the machine, and the
command computes from the operands it latched either way. -/
def Obligations.OperandWriteRacesCompletion : Prop :=
  ∀ (s : State) (p : Pending) (v : Word), s.rstN = true → s.blk.busy = true →
    s.blk.pending = some p →
    ∃ t1 t2 : State,
      core.run 2 { s with agenda := [.port (writeTxn 0x020 v), .engineTurn] } = .next t1 ∧
      core.run 2 { s with agenda := [.engineTurn, .port (writeTxn 0x020 v)] } = .next t2 ∧
      t1.blk.a = s.blk.a ∧ t1.blk.hostErr = true ∧
      wordOf t2.blk.a 0 = v ∧ t2.blk.hostErr = s.blk.hostErr ∧
      t1.blk.SameResults t2.blk ∧ t1.blk.errCode = t2.blk.errCode ∧
      t1.blk.done = true ∧ t2.blk.done = true

/-! ### Invariants -/

/-- The invariant holds after reset. -/
def Obligations.InvariantHoldsAtReset : Prop := State.reset.Inv

/-- Every step keeps the invariant: BUSY says that a command is in flight, on the operands in the registers;
ERR says that ERRCODE is an error, and code 5 never occurs; at most one flag is set; RNUM, RLEN and COUNT
stay in range; and the block holds its reset state while rst_n is low. -/
def Obligations.InvariantKeptByStep : Prop :=
  ∀ s t : State, s.Inv → step s = .next t → t.Inv

/-- The entries below COUNT are always canonical prefixes in ascending order without a gap: the last
decomposition, whole (10_state.md R35, 44_decompose.md R181). It holds after reset, with COUNT 0. -/
def Obligations.OutputStaysTiled : Prop :=
  State.reset.blk.OutTiles ∧ ∀ s t : State, s.blk.OutTiles → step s = .next t → t.blk.OutTiles
end

