-- ==== Sys2Proof/Laws/Bits.lean ====
section
/-! SUPPORT. What the helpers of R12 compute, in the terms of divisibility and powers of two that the
later lemmas and the statements use. -/

namespace Sys2Proof.Machine

/-- "greatest j in 0..n with P j" is a witness, in range, and nothing above it in range qualifies. -/
theorem greatest_spec (P : Nat → Bool) (n : Nat) (h0 : P 0 = true) :
    P (greatest P n) = true ∧ greatest P n ≤ n ∧
      ∀ j, greatest P n < j → j ≤ n → P j = false := by
  induction n with
  | zero => exact ⟨h0, le_rfl, fun j hj hn => by simp only [greatest] at hj; omega⟩
  | succ n ih =>
    unfold greatest
    split
    · next h => exact ⟨h, le_rfl, fun j hj hn => by omega⟩
    · next h =>
      obtain ⟨h1, h2, h3⟩ := ih
      refine ⟨h1, by omega, fun j hj hn => ?_⟩
      rcases Nat.lt_or_ge n j with hlt | hge
      · obtain rfl : j = n + 1 := by omega
        simpa using h
      · exact h3 j hj hge

/-- The greatest qualifying number is the one that qualifies with nothing above it in range. -/
theorem greatest_eq (P : Nat → Bool) {n m : Nat} (hm : m ≤ n) (hP : P m = true)
    (hmax : ∀ j, m < j → j ≤ n → P j = false) : greatest P n = m := by
  induction n with
  | zero => simp only [greatest]; omega
  | succ n ih =>
    unfold greatest
    rcases Nat.eq_or_lt_of_le hm with rfl | hlt
    · simp [hP]
    · rw [if_neg (by simp [hmax (n + 1) hlt le_rfl])]
      exact ih (by omega) fun j hj hn => hmax j hj (by omega)

theorem ones_succ (n : Nat) : ones n + 1 = 2 ^ n := by
  have := Nat.two_pow_pos n
  unfold ones; omega

theorem and_ones (c n : Nat) : c &&& ones n = c % 2 ^ n := Nat.and_two_pow_sub_one_eq_mod c n

/-- The low `b` bits of `c` are all 1 exactly when `2^b` divides `c + 1`. -/
theorem mod_eq_ones_iff (c b : Nat) : c % 2 ^ b = ones b ↔ 2 ^ b ∣ c + 1 := by
  have hp := Nat.two_pow_pos b
  have hd := Nat.div_add_mod c (2 ^ b)
  have hl := Nat.mod_lt c hp
  constructor
  · intro h
    refine ⟨c / 2 ^ b + 1, ?_⟩
    have := ones_succ b
    rw [Nat.mul_add]; omega
  · rintro ⟨q, hq⟩
    have : c % 2 ^ b = (2 ^ b * q - 1) % 2 ^ b := by rw [← hq]; rfl
    obtain _ | q := q
    · omega
    · rw [this, show 2 ^ b * (q + 1) - 1 = (2 ^ b - 1) + 2 ^ b * q by rw [Nat.mul_add]; omega,
        Nat.add_mul_mod_self_left, Nat.mod_eq_of_lt (by omega)]
      rfl

/-- The next multiple of `2^n` after an odd one is even. -/
theorem two_pow_succ_dvd_add {n c : Nat} (h : 2 ^ n ∣ c) (hn : ¬ 2 ^ (n + 1) ∣ c) :
    2 ^ (n + 1) ∣ c + 2 ^ n := by
  obtain ⟨q, rfl⟩ := h
  rcases Nat.even_or_odd' q with ⟨r, rfl | rfl⟩
  · exact absurd ⟨r, by rw [pow_succ]; ring⟩ hn
  · exact ⟨r + 1, by rw [pow_succ]; ring⟩

/-- `trailingOnes` is the largest `b` up to `W` for which a block of size `2^b` ends at `c`
(00_scope.md R16). -/
theorem trailingOnes_spec (c W : Nat) :
    trailingOnes c W ≤ W ∧ ∀ j ≤ W, (2 ^ j ∣ c + 1 ↔ j ≤ trailingOnes c W) := by
  unfold trailingOnes
  obtain ⟨h1, h2, h3⟩ := greatest_spec (fun b => c &&& ones b == ones b) W (by simp [ones])
  set g := greatest (fun b => c &&& ones b == ones b) W
  have h1' : 2 ^ g ∣ c + 1 := by rw [← mod_eq_ones_iff, ← and_ones]; simpa using h1
  refine ⟨h2, fun j hj => ⟨fun hd => ?_, fun hle => (Nat.pow_dvd_pow 2 hle).trans h1'⟩⟩
  by_contra hn
  have := h3 j (by omega) hj
  rw [← mod_eq_ones_iff, ← and_ones] at hd
  simp [hd] at this

/-- `trailingZeros` is the largest `b` up to `W` for which a block of size `2^b` begins at `a`
(00_scope.md R16). -/
theorem trailingZeros_spec {a W : Nat} (ha : a < 2 ^ W) :
    trailingZeros a W ≤ W ∧ ∀ j ≤ W, (2 ^ j ∣ a ↔ j ≤ trailingZeros a W) := by
  unfold trailingZeros
  split
  · next h => subst h; simp
  · next h =>
    obtain ⟨h1, h2, h3⟩ := greatest_spec (fun b => a &&& ones b == 0) (W - 1) (by simp [ones])
    set g := greatest (fun b => a &&& ones b == 0) (W - 1) with hg
    have h1' : 2 ^ g ∣ a := by
      rw [Nat.dvd_iff_mod_eq_zero, ← and_ones]; simpa using h1
    refine ⟨by omega, fun j hj => ⟨fun hd => ?_, fun hle => (Nat.pow_dvd_pow 2 hle).trans h1'⟩⟩
    by_contra hn
    have hlt : 2 ^ j < 2 ^ W := lt_of_le_of_lt (Nat.le_of_dvd (by omega) hd) ha
    have hjW : j < W := (Nat.pow_lt_pow_iff_right (by norm_num)).1 hlt
    have := h3 j (by omega) (by omega)
    rw [Nat.dvd_iff_mod_eq_zero, ← and_ones] at hd
    simp [hd] at this

/-- `mask(W, p) = 2^W - 2^(W - p)`. -/
theorem mask_eq {W p : Nat} : mask W p = 2 ^ W - 2 ^ (W - p) := by
  have := Nat.two_pow_pos (W - p)
  unfold mask ones; omega

theorem mask_lt {W p : Nat} : mask W p < 2 ^ W := by
  have := Nat.two_pow_pos (W - p)
  have := Nat.two_pow_pos W
  rw [mask_eq]; omega

/-- `clearLow(c, b)` is `c` rounded down to a multiple of `2^b`. -/
theorem clearLow_eq (c b : Nat) : clearLow c b = c / 2 ^ b * 2 ^ b := by
  unfold clearLow; rw [Nat.shiftRight_eq_div_pow, Nat.shiftLeft_eq]

/-- `canon(a, W, p)` is `a` rounded down to a multiple of the block size `2^(W - p)`. -/
theorem canon_eq {a W p : Nat} (ha : a < 2 ^ W) (hp : p ≤ W) :
    canon a W p = a / 2 ^ (W - p) * 2 ^ (W - p) := by
  apply Nat.eq_of_testBit_eq
  intro i
  have hm : mask W p = (2 ^ p - 1) * 2 ^ (W - p) := by
    rw [mask_eq, Nat.sub_mul, one_mul, ← Nat.pow_add, Nat.add_sub_cancel' hp]
  unfold canon
  rw [Nat.testBit_and, hm, ← Nat.shiftLeft_eq, ← Nat.shiftLeft_eq, Nat.testBit_shiftLeft,
    Nat.testBit_shiftLeft, ← Nat.shiftRight_eq_div_pow, Nat.testBit_shiftRight,
    Nat.testBit_two_pow_sub_one]
  by_cases hi : W - p ≤ i
  · rw [Nat.add_sub_cancel' hi]
    by_cases hiW : i < W
    · have : i - (W - p) < p := by omega
      simp [hi, this]
    · have : a.testBit i = false :=
        Nat.testBit_lt_two_pow (lt_of_lt_of_le ha (Nat.pow_le_pow_right (by norm_num) (by omega)))
      simp [this]
  · simp [hi]

/-- Setting the host bits of a network address adds them. -/
theorem or_hostMask {q n : Nat} : (q * 2 ^ n) ||| ones n = q * 2 ^ n + (2 ^ n - 1) := by
  have := Nat.two_pow_pos n
  rw [← Nat.shiftLeft_eq, ones, ← Nat.shiftLeft_add_eq_or_of_lt (by omega)]

/-- The mask of length `p` has exactly `p` leading ones. -/
theorem leadingOnes_mask {W p : Nat} (hp : p ≤ W) : leadingOnes (mask W p) W = p := by
  have key : ∀ q ≤ W, (topField (mask W p) W q = ones q ↔ q ≤ p) := by
    intro q hq
    have hmask : mask W p = (2 ^ p - 1) * 2 ^ (W - p) := by
      rw [mask_eq, Nat.sub_mul, one_mul, ← Nat.pow_add, Nat.add_sub_cancel' hp]
    constructor
    · intro h
      by_contra hn
      have hbit := congrArg (fun x => x.testBit (q - 1 - p)) h
      simp only [topField, ones, Nat.testBit_and, Nat.testBit_shiftRight,
        Nat.testBit_two_pow_sub_one] at hbit
      rw [hmask, ← Nat.shiftLeft_eq, Nat.testBit_shiftLeft] at hbit
      simp at hbit
      omega
    · intro hqp
      apply Nat.eq_of_testBit_eq
      intro i
      simp only [topField, ones, Nat.testBit_and, Nat.testBit_shiftRight,
        Nat.testBit_two_pow_sub_one]
      rw [hmask, ← Nat.shiftLeft_eq, Nat.testBit_shiftLeft, Nat.testBit_two_pow_sub_one]
      by_cases hi : i < q
      · simp only [hi, decide_true, Bool.and_true, Bool.and_eq_true, decide_eq_true_eq]
        omega
      · simp [hi]
  exact greatest_eq _ hp (by simpa using (key p hp).2 le_rfl) fun j hj hn => by
    have := (key j hn).not.2 (by omega)
    simpa using this

theorem leadingOnes_le (a W : Nat) : leadingOnes a W ≤ W :=
  (greatest_spec (fun q => topField a W q == ones q) W (by simp [topField, ones])).2.1

end Sys2Proof.Machine
end

