-- ==== Sys2Proof/Laws/Decompose.lean ====
section
/-! SUPPORT. What the comparator and the loop of DECOMPOSE do: the block `upBits` and `downBits` choose,
and that the loop's fuel never runs out, so that its prefixes tile the whole range
(spec/44_decompose.md R180 to R184, R201, R205). -/

namespace Sys2Proof.Machine

/-- `upBits` is the largest `n` with an aligned block of size `2^n` that starts at `cur` and does not
pass `e`. -/
theorem upBits_spec {W cur e : Nat} (hcur : cur < 2 ^ W) (he : cur ≤ e) :
    upBits W cur e ≤ trailingZeros cur W ∧ upBits W cur e ≤ W ∧ 2 ^ upBits W cur e ∣ cur ∧
      cur + 2 ^ upBits W cur e ≤ e + 1 ∧
      ∀ j ≤ W, 2 ^ j ∣ cur → cur + 2 ^ j ≤ e + 1 → j ≤ upBits W cur e := by
  obtain ⟨hW, hdvd⟩ := trailingZeros_spec hcur
  obtain ⟨h1, h2, h3⟩ :=
    greatest_spec (fun j => decide (cur + ones j ≤ e)) (trailingZeros cur W) (by simpa [ones])
  change _ ≤ trailingZeros cur W at h2
  have hle : upBits W cur e ≤ W := h2.trans hW
  have hfit : cur + ones (upBits W cur e) ≤ e := by simpa [upBits] using h1
  have hs := ones_succ (upBits W cur e)
  refine ⟨h2, hle, (hdvd _ hle).2 h2, by omega, fun j hj hd hj' => ?_⟩
  by_contra hn
  have := h3 j (by simpa [upBits] using hn) ((hdvd j hj).1 hd)
  have hs := ones_succ j
  simp only [decide_eq_false_iff_not] at this
  omega

/-- `downBits` is the largest `n` with an aligned block of size `2^n` that ends at `c` and does not
start below `s`. -/
theorem downBits_spec {W s c : Nat} (hs : s ≤ c) :
    downBits W s c ≤ W ∧ 2 ^ downBits W s c ∣ c + 1 ∧ s + 2 ^ downBits W s c ≤ c + 1 ∧
      clearLow c (downBits W s c) = c + 1 - 2 ^ downBits W s c ∧
      ∀ j ≤ W, 2 ^ j ∣ c + 1 → s + 2 ^ j ≤ c + 1 → j ≤ downBits W s c := by
  have clear : ∀ j, 2 ^ j ∣ c + 1 → clearLow c j = c + 1 - 2 ^ j := by
    intro j hj
    have hm := (mod_eq_ones_iff c j).2 hj
    have hd := Nat.div_add_mod' c (2 ^ j)
    have hp := ones_succ j
    rw [clearLow_eq]; omega
  obtain ⟨hW, hdvd⟩ := trailingOnes_spec c W
  obtain ⟨h1, h2, h3⟩ :=
    greatest_spec (fun j => decide (s ≤ clearLow c j)) (trailingOnes c W) (by simp [clearLow, hs])
  change _ ≤ trailingOnes c W at h2
  have hle : downBits W s c ≤ W := h2.trans hW
  have hd : 2 ^ downBits W s c ∣ c + 1 := (hdvd _ hle).2 h2
  have hfit : s ≤ clearLow c (downBits W s c) := by simpa [downBits] using h1
  have hpos := Nat.le_of_dvd (by omega) hd
  rw [clear _ hd] at hfit
  refine ⟨hle, hd, by omega, clear _ hd, fun j hj hjd hj' => ?_⟩
  by_contra hn
  have := h3 j (by simpa [downBits] using hn) ((hdvd j hj).1 hjd)
  rw [clear j hjd] at this
  simp only [decide_eq_false_iff_not] at this
  omega

/-- Once the block at `cur` is cut short by `e`, every later one is: a fuel above the remaining bit
count suffices (the falling phase of R188). -/
theorem decomposeLoop_tiles_falling {W e : Nat} (he : e < 2 ^ W) : ∀ (fuel cur : Nat), cur ≤ e →
    e + 1 - cur < 2 ^ trailingZeros cur W → e + 1 - cur < 2 ^ fuel →
    Tiles W cur (decomposeLoop W e fuel cur) (e + 1) := by
  intro fuel
  induction fuel with
  | zero => intro cur hc _ hf; simp at hf; omega
  | succ fuel ih =>
    intro cur hc hk hf
    obtain ⟨hbk, hbW, hbd, hbe, -⟩ := upBits_spec (by omega : cur < 2 ^ W) hc
    have hmax : e + 1 - cur < 2 ^ (upBits W cur e + 1) := by
      by_contra hn
      have hlt : upBits W cur e + 1 ≤ trailingZeros cur W := by
        by_contra h
        have := Nat.pow_le_pow_right (by norm_num : 0 < 2) (by omega :
          trailingZeros cur W ≤ upBits W cur e + 1)
        omega
      obtain ⟨hkW, hkd⟩ := trailingZeros_spec (by omega : cur < 2 ^ W)
      have := (upBits_spec (by omega : cur < 2 ^ W) hc).2.2.2.2 (upBits W cur e + 1) (by omega)
        ((hkd _ (by omega)).2 hlt) (by omega)
      omega
    have hones := ones_succ (upBits W cur e)
    rw [pow_succ] at hmax
    refine ⟨rfl, by simp, by rwa [Nat.sub_sub_self hbW], ?_⟩
    simp only [Nat.sub_sub_self hbW]
    split
    · exact show _ = _ by omega
    · have hnext : cur + 2 ^ upBits W cur e ≤ e := by omega
      obtain ⟨-, hkd⟩ := trailingZeros_spec (by omega : cur + 2 ^ upBits W cur e < 2 ^ W)
      have hb : upBits W cur e ≤ trailingZeros (cur + 2 ^ upBits W cur e) W :=
        (hkd _ hbW).1 ((Nat.dvd_add_right hbd).2 dvd_rfl)
      have hpow := Nat.pow_le_pow_right (by norm_num : 0 < 2) hb
      have hbf : upBits W cur e ≤ fuel := by
        by_contra hn
        have := Nat.pow_le_pow_right (by norm_num : 0 < 2) (by omega :
          fuel + 1 ≤ upBits W cur e)
        omega
      have hpow2 := Nat.pow_le_pow_right (by norm_num : 0 < 2) hbf
      exact ih _ hnext (by omega) (by omega)

/-- While every block is the full alignment the alignment rises (the rising phase of R188). -/
theorem decomposeLoop_tiles {W e : Nat} (he : e < 2 ^ W) : ∀ (fuel cur : Nat), cur ≤ e →
    2 * W + 1 ≤ fuel + trailingZeros cur W →
    Tiles W cur (decomposeLoop W e fuel cur) (e + 1) := by
  intro fuel
  induction fuel with
  | zero =>
    intro cur hc hf
    have := (trailingZeros_spec (by omega : cur < 2 ^ W)).1
    omega
  | succ fuel ih =>
    intro cur hc hf
    have hlt : cur < 2 ^ W := by omega
    obtain ⟨hkW, hkd⟩ := trailingZeros_spec hlt
    obtain ⟨hbk, hbW, hbd, hbe, hbmax⟩ := upBits_spec hlt hc
    rcases Nat.lt_or_ge (upBits W cur e) (trailingZeros cur W) with hcut | hfull
    · have hk : e + 1 - cur < 2 ^ trailingZeros cur W := by
        by_contra hn
        have := hbmax _ hkW ((hkd _ hkW).2 le_rfl) (by omega)
        omega
      have := Nat.pow_le_pow_right (by norm_num : 0 < 2) (by omega : trailingZeros cur W ≤ fuel + 1)
      exact decomposeLoop_tiles_falling he (fuel + 1) cur hc hk (by omega)
    · have hbeq : upBits W cur e = trailingZeros cur W := by omega
      have hones := ones_succ (upBits W cur e)
      refine ⟨rfl, by simp, by rwa [Nat.sub_sub_self hbW], ?_⟩
      simp only [Nat.sub_sub_self hbW]
      split
      · exact show _ = _ by omega
      · have hnext : cur + 2 ^ upBits W cur e ≤ e := by omega
        have hk1 : upBits W cur e + 1 ≤ W := by
          by_contra hn
          rw [show upBits W cur e = W by omega] at hnext
          omega
        have hodd : 2 ^ (upBits W cur e + 1) ∣ cur + 2 ^ upBits W cur e := by
          have hnot : ¬ 2 ^ (upBits W cur e + 1) ∣ cur := fun h => by
            have := (hkd _ hk1).1 h
            omega
          exact two_pow_succ_dvd_add hbd hnot
        obtain ⟨-, hkd'⟩ := trailingZeros_spec (by omega : cur + 2 ^ upBits W cur e < 2 ^ W)
        have := (hkd' _ hk1).1 hodd
        exact ih _ hnext (by omega)

/-- The prefixes of `decompose` tile `[s, e]`: the fuel `2W + 1` never runs out. -/
theorem decompose_tiles {W s e : Nat} (hse : s ≤ e) (he : e < 2 ^ W) :
    Tiles W s (decompose W s e) (e + 1) :=
  decomposeLoop_tiles he _ _ hse (by omega)

/-- Every prefix of a tiling starts below its end. -/
theorem Tiles.addr_lt {W : Nat} : ∀ {s t : Nat} {l : List Cidr}, Tiles W s l t →
    s ≤ t ∧ ∀ c ∈ l, s ≤ c.addr ∧ c.addr < t
  | _, _, [], h => ⟨le_of_eq h, by simp⟩
  | s, t, c :: l, ⟨ha, _, _, h⟩ => by
    have hp := Nat.two_pow_pos (W - c.bits)
    obtain ⟨h1, h2⟩ := h.addr_lt
    refine ⟨by omega, fun d hd => ?_⟩
    rcases List.mem_cons.1 hd with rfl | hd
    · omega
    · have := h2 d hd
      omega

end Sys2Proof.Machine
end

