-- ==== Sys2Proof/Laws/Operands.lean ====
section
/-! SUPPORT. One lemma per outcome of each shared check (spec/40_command.md R114 to R118, R121). -/

namespace Sys2Proof.Machine

@[simp] theorem except_ok_bind {ε α β : Type} (a : α) (f : α → Except ε β) :
    (Except.ok a >>= f) = f a := rfl

@[simp] theorem except_error_bind {ε α β : Type} (e : ε) (f : α → Except ε β) :
    ((Except.error e : Except ε α) >>= f) = .error e := rfl

@[simp] theorem require_true (k : ErrorKind) : require true k = .ok () := rfl
@[simp] theorem require_false (k : ErrorKind) : require false k = .error k := rfl

theorem validLen_iff (len : Len) : validLen len = true ↔ len = 4#5 ∨ len = 16#5 := by
  simp [validLen]

theorem validAddr_iff (v : Value) (len : Len) : validAddr v len = true ↔ ValidAddr v len := by
  rw [validAddr, Bool.and_eq_true, validLen_iff, decide_eq_true_iff, width]

theorem validAddr_eq_false (v : Value) (len : Len) :
    validAddr v len = false ↔ ¬ ValidAddr v len := by
  rw [← validAddr_iff]; simp

/-- A legal length's family width (00_scope.md R9). -/
theorem width_legal {len : Len} (h : len = 4#5 ∨ len = 16#5) :
    8 * len.toNat = 32 ∨ 8 * len.toNat = 128 := by
  rcases h with rfl | rfl <;> simp

theorem width_le {len : Len} (h : len = 4#5 ∨ len = 16#5) : 8 * len.toNat ≤ 128 := by
  rcases width_legal h with h | h <;> omega

section checks
variable {p : Pending}

theorem oneOperand_ok (h : ValidAddr p.a p.lenA) : oneOperand p = .ok (8 * p.lenA.toNat) := by
  rw [oneOperand, (validAddr_iff _ _).2 h]; rfl

theorem oneOperand_error (h : ¬ ValidAddr p.a p.lenA) :
    oneOperand p = .error .invalidAddress := by
  rw [oneOperand, (validAddr_eq_false _ _).2 h]; rfl

theorem lengthOperand_ok (h : p.lenA = 4#5 ∨ p.lenA = 16#5) :
    lengthOperand p = .ok (8 * p.lenA.toNat) := by
  rw [lengthOperand, (validLen_iff _).2 h]; rfl

theorem lengthOperand_error (h : ¬ (p.lenA = 4#5 ∨ p.lenA = 16#5)) :
    lengthOperand p = .error .invalidAddress := by
  rw [lengthOperand, Bool.eq_false_iff.2 (mt (validLen_iff _).1 h)]; rfl

theorem twoOperands_ok (h : ValidPair p) : twoOperands p = .ok (8 * p.lenA.toNat) := by
  obtain ⟨ha, hb, hl⟩ := h
  rw [twoOperands, (validAddr_iff _ _).2 ha, (validAddr_iff _ _).2 hb, beq_iff_eq.2 hl]; rfl

theorem twoOperands_errorA (h : ¬ ValidAddr p.a p.lenA) :
    twoOperands p = .error .invalidAddress := by
  rw [twoOperands, (validAddr_eq_false _ _).2 h]; rfl

theorem twoOperands_errorB (ha : ValidAddr p.a p.lenA) (h : ¬ ValidAddr p.b p.lenB) :
    twoOperands p = .error .invalidAddress := by
  rw [twoOperands, (validAddr_iff _ _).2 ha, (validAddr_eq_false _ _).2 h]; rfl

theorem twoOperands_family (ha : ValidAddr p.a p.lenA) (hb : ValidAddr p.b p.lenB)
    (h : p.lenA ≠ p.lenB) : twoOperands p = .error .familyMismatch := by
  rw [twoOperands, (validAddr_iff _ _).2 ha, (validAddr_iff _ _).2 hb, beq_eq_false_iff_ne.2 h]; rfl

end checks

theorem checkPlen_ok {plen W : Nat} (h : plen ≤ W) : checkPlen plen W = .ok () := by
  rw [checkPlen, decide_eq_true h]; rfl

theorem checkPlen_error {plen W : Nat} (h : W < plen) :
    checkPlen plen W = .error .invalidPrefixLength := by
  rw [checkPlen, decide_eq_false (Nat.not_le.2 h)]; rfl

theorem checkRange_ok {s e : Nat} (h : s ≤ e) : checkRange s e = .ok () := by
  rw [checkRange, decide_eq_true h]; rfl

theorem checkRange_error {s e : Nat} (h : e < s) : checkRange s e = .error .invalidRange := by
  rw [checkRange, decide_eq_false (Nat.not_le.2 h)]; rfl

/-- The mask of length `n` has length `n` (42_mask.md R142). -/
theorem maskLength_ok {m W n : Nat} (hn : n ≤ W) (hm : m = 2 ^ W - 2 ^ (W - n)) :
    maskLength m W = .ok n := by
  rw [← mask_eq] at hm
  subst hm
  rw [maskLength, leadingOnes_mask hn, beq_self_eq_true]; rfl

/-- A pattern that is no mask is an error, never a length (42_mask.md R141). -/
theorem maskLength_error {m W : Nat} (h : ∀ n ≤ W, m ≠ 2 ^ W - 2 ^ (W - n)) :
    maskLength m W = .error .nonCanonicalMask := by
  have := h _ (leadingOnes_le m W)
  rw [← mask_eq] at this
  rw [maskLength, beq_eq_false_iff_ne.2 this]; rfl

theorem checked_ok {W : Nat} {r : Results} (h : r.fits W = true) : checked W r = .ok r := by
  rw [checked, h]; rfl

end Sys2Proof.Machine
end

