-- ==== Sys2Proof/Laws/State.lean ====
section
/-! SUPPORT. One lemma per field per update of the state and of the block, each true by definition. -/

namespace Sys2Proof.Machine

section state
variable (s : State) (b : Block) (v : Word)

@[simp] theorem State.withBlk_blk : (s.withBlk b).blk = b := rfl
@[simp] theorem State.withBlk_rstN : (s.withBlk b).rstN = s.rstN := rfl
@[simp] theorem State.withBlk_agenda : (s.withBlk b).agenda = s.agenda := rfl
@[simp] theorem State.withBlk_returned : (s.withBlk b).returned = s.returned := rfl
@[simp] theorem State.withBlk_draws : (s.withBlk b).draws = s.draws := rfl
@[simp] theorem State.withBlk_self : s.withBlk s.blk = s := rfl
@[simp] theorem State.withBlk_withBlk (c : Block) : (s.withBlk b).withBlk c = s.withBlk c := rfl

@[simp] theorem State.answer_blk : (s.answer v).blk = s.blk := rfl
@[simp] theorem State.answer_rstN : (s.answer v).rstN = s.rstN := rfl
@[simp] theorem State.answer_agenda : (s.answer v).agenda = s.agenda := rfl
@[simp] theorem State.answer_returned : (s.answer v).returned = v :: s.returned := rfl
@[simp] theorem State.answer_draws : (s.answer v).draws = s.draws := rfl

@[simp] theorem State.answerFree_blk : s.answerFree.blk = s.blk := rfl
@[simp] theorem State.answerFree_rstN : s.answerFree.rstN = s.rstN := rfl
@[simp] theorem State.answerFree_agenda : s.answerFree.agenda = s.agenda := rfl
@[simp] theorem State.answerFree_returned :
    s.answerFree.returned = Config.freeWord s.draws :: s.returned := rfl
@[simp] theorem State.answerFree_draws : s.answerFree.draws = s.draws + 1 := rfl

@[simp] theorem State.hardReset_blk : s.hardReset.blk = Block.atReset (launchOut s.draws) := rfl
@[simp] theorem State.hardReset_rstN : s.hardReset.rstN = s.rstN := rfl
@[simp] theorem State.hardReset_agenda : s.hardReset.agenda = s.agenda := rfl
@[simp] theorem State.hardReset_returned : s.hardReset.returned = s.returned := rfl
@[simp] theorem State.hardReset_draws : s.hardReset.draws = s.draws + 1 := rfl

@[simp] theorem State.resetLow_blk : s.resetLow.blk = Block.atReset (launchOut s.draws) := rfl
@[simp] theorem State.resetLow_rstN : s.resetLow.rstN = false := rfl
@[simp] theorem State.resetLow_agenda : s.resetLow.agenda = s.agenda := rfl
@[simp] theorem State.resetLow_returned : s.resetLow.returned = s.returned := rfl

@[simp] theorem State.reset_rstN : State.reset.rstN = true := rfl
@[simp] theorem State.reset_agenda : State.reset.agenda = [] := rfl
@[simp] theorem State.reset_blk : State.reset.blk = Block.atReset (launchOut 0) := rfl

end state

section block
variable (b : Block) (w : Word) (out : Vector OutEntry Config.outDepth)

@[simp] theorem Block.atReset_pending : (Block.atReset out).pending = none := rfl
@[simp] theorem Block.atReset_busy : (Block.atReset out).busy = false := rfl
@[simp] theorem Block.atReset_done : (Block.atReset out).done = false := rfl
@[simp] theorem Block.atReset_err : (Block.atReset out).err = false := rfl
@[simp] theorem Block.atReset_errCode : (Block.atReset out).errCode = 0 := rfl
@[simp] theorem Block.atReset_hostErr : (Block.atReset out).hostErr = false := rfl
@[simp] theorem Block.atReset_irqEn : (Block.atReset out).irqEn = false := rfl
@[simp] theorem Block.atReset_count : (Block.atReset out).count = 0 := rfl
@[simp] theorem Block.atReset_out : (Block.atReset out).out = out := rfl

@[simp] theorem Block.refuse_hostErr : b.refuse.hostErr = true := rfl
@[simp] theorem Block.refuse_busy : b.refuse.busy = b.busy := rfl
@[simp] theorem Block.refuse_pending : b.refuse.pending = b.pending := rfl
@[simp] theorem Block.refuse_done : b.refuse.done = b.done := rfl
@[simp] theorem Block.refuse_err : b.refuse.err = b.err := rfl
@[simp] theorem Block.refuse_errCode : b.refuse.errCode = b.errCode := rfl
@[simp] theorem Block.refuse_irqEn : b.refuse.irqEn = b.irqEn := rfl
@[simp] theorem Block.refuse_cmd : b.refuse.cmd = b.cmd := rfl
@[simp] theorem Block.refuse_a : b.refuse.a = b.a := rfl
@[simp] theorem Block.refuse_lenA : b.refuse.lenA = b.lenA := rfl
@[simp] theorem Block.refuse_b : b.refuse.b = b.b := rfl
@[simp] theorem Block.refuse_lenB : b.refuse.lenB = b.lenB := rfl
@[simp] theorem Block.refuse_r0 : b.refuse.r0 = b.r0 := rfl
@[simp] theorem Block.refuse_r1 : b.refuse.r1 = b.r1 := rfl
@[simp] theorem Block.refuse_rNum : b.refuse.rNum = b.rNum := rfl
@[simp] theorem Block.refuse_rLen : b.refuse.rLen = b.rLen := rfl
@[simp] theorem Block.refuse_cmpLt : b.refuse.cmpLt = b.cmpLt := rfl
@[simp] theorem Block.refuse_cmpEq : b.refuse.cmpEq = b.cmpEq := rfl
@[simp] theorem Block.refuse_cmpGt : b.refuse.cmpGt = b.cmpGt := rfl
@[simp] theorem Block.refuse_count : b.refuse.count = b.count := rfl
@[simp] theorem Block.refuse_out : b.refuse.out = b.out := rfl

@[simp] theorem Block.accept_cmd : (b.accept w).cmd = w := rfl
@[simp] theorem Block.accept_pending : (b.accept w).pending =
    some { word := w, a := b.a, lenA := b.lenA, b := b.b, lenB := b.lenB } := rfl
@[simp] theorem Block.accept_busy : (b.accept w).busy = true := rfl
@[simp] theorem Block.accept_done : (b.accept w).done = false := rfl
@[simp] theorem Block.accept_err : (b.accept w).err = false := rfl
@[simp] theorem Block.accept_errCode : (b.accept w).errCode = 0 := rfl
@[simp] theorem Block.accept_hostErr : (b.accept w).hostErr = b.hostErr := rfl
@[simp] theorem Block.accept_irqEn : (b.accept w).irqEn = b.irqEn := rfl
@[simp] theorem Block.accept_a : (b.accept w).a = b.a := rfl
@[simp] theorem Block.accept_lenA : (b.accept w).lenA = b.lenA := rfl
@[simp] theorem Block.accept_b : (b.accept w).b = b.b := rfl
@[simp] theorem Block.accept_lenB : (b.accept w).lenB = b.lenB := rfl
@[simp] theorem Block.accept_r0 : (b.accept w).r0 = b.r0 := rfl
@[simp] theorem Block.accept_r1 : (b.accept w).r1 = b.r1 := rfl
@[simp] theorem Block.accept_rNum : (b.accept w).rNum = b.rNum := rfl
@[simp] theorem Block.accept_rLen : (b.accept w).rLen = b.rLen := rfl
@[simp] theorem Block.accept_cmpLt : (b.accept w).cmpLt = b.cmpLt := rfl
@[simp] theorem Block.accept_cmpEq : (b.accept w).cmpEq = b.cmpEq := rfl
@[simp] theorem Block.accept_cmpGt : (b.accept w).cmpGt = b.cmpGt := rfl
@[simp] theorem Block.accept_count : (b.accept w).count = b.count := rfl
@[simp] theorem Block.accept_out : (b.accept w).out = b.out := rfl

@[simp] theorem Block.softReset_eq : b.softReset = Block.atReset b.out := rfl

end block

section completion
variable (b : Block) (r : Results) (k : ErrorKind)

@[simp] theorem Block.completeOk_busy : (b.completeOk r).busy = false := rfl
@[simp] theorem Block.completeOk_done : (b.completeOk r).done = true := rfl
@[simp] theorem Block.completeOk_err : (b.completeOk r).err = false := rfl
@[simp] theorem Block.completeOk_errCode : (b.completeOk r).errCode = 0 := rfl
@[simp] theorem Block.completeOk_pending : (b.completeOk r).pending = none := rfl
@[simp] theorem Block.completeOk_a : (b.completeOk r).a = b.a := rfl
@[simp] theorem Block.completeOk_lenA : (b.completeOk r).lenA = b.lenA := rfl
@[simp] theorem Block.completeOk_b : (b.completeOk r).b = b.b := rfl
@[simp] theorem Block.completeOk_lenB : (b.completeOk r).lenB = b.lenB := rfl
@[simp] theorem Block.completeOk_cmd : (b.completeOk r).cmd = b.cmd := rfl
@[simp] theorem Block.completeOk_irqEn : (b.completeOk r).irqEn = b.irqEn := rfl
@[simp] theorem Block.completeOk_hostErr : (b.completeOk r).hostErr = b.hostErr := rfl

@[simp] theorem Block.completeErr_busy : (b.completeErr k).busy = false := rfl
@[simp] theorem Block.completeErr_done : (b.completeErr k).done = true := rfl
@[simp] theorem Block.completeErr_err : (b.completeErr k).err = true := rfl
@[simp] theorem Block.completeErr_errCode : (b.completeErr k).errCode = k.code := rfl
@[simp] theorem Block.completeErr_pending : (b.completeErr k).pending = none := rfl
@[simp] theorem Block.completeErr_a : (b.completeErr k).a = b.a := rfl
@[simp] theorem Block.completeErr_lenA : (b.completeErr k).lenA = b.lenA := rfl
@[simp] theorem Block.completeErr_b : (b.completeErr k).b = b.b := rfl
@[simp] theorem Block.completeErr_lenB : (b.completeErr k).lenB = b.lenB := rfl
@[simp] theorem Block.completeErr_cmd : (b.completeErr k).cmd = b.cmd := rfl
@[simp] theorem Block.completeErr_irqEn : (b.completeErr k).irqEn = b.irqEn := rfl
@[simp] theorem Block.completeErr_hostErr : (b.completeErr k).hostErr = b.hostErr := rfl
@[simp] theorem Block.completeErr_out : (b.completeErr k).out = b.out := rfl
@[simp] theorem Block.completeErr_count : (b.completeErr k).count = b.count := rfl

end completion

end Sys2Proof.Machine
end

