-- ==== Sys2Proof/Laws/Ops.lean ====
section
/-! SUPPORT. What each shared operation can do, said once: completion, one command, the engine's turn,
the writing of OUT, one step. -/

namespace Sys2Proof.Machine

/-- The effect of each command on its latched operands, for statements about all commands. -/
def Instr.effect : Instr → Pending → Except ErrorKind Results
  | .cmp _ => cmpEffect
  | .mask2plen _ => mask2plenEffect
  | .plen2mask n => plen2maskEffect n
  | .addrmask2prefix _ => addrmask2prefixEffect
  | .expand n => expandEffect n
  | .netmask n => netmaskEffect n
  | .canon n => canonEffect n
  | .decompose _ => decomposeEffect
  | .alignEnd _ => alignEndEffect
  | .alignStart _ => alignStartEffect
  | .stepDown _ => stepDownEffect
  | .stepUp _ => stepUpEffect

/-- Every command is its effect run on the operands in flight (40_command.md R113). -/
theorem exec_eq_runCommand (i : Instr) (s : State) : exec i s = s.runCommand (Instr.effect i) := by
  cases i <;> rfl

@[simp] theorem State.complete_ok (s : State) (r : Results) :
    s.complete (.ok r) = .next (s.withBlk (s.blk.completeOk r)) := rfl

theorem State.complete_error (s : State) {k : ErrorKind} (h : k ≠ .addressConversionError) :
    s.complete (.error k) = .next (s.withBlk (s.blk.completeErr k)) := by
  cases k <;> first | rfl | exact absurd rfl h

/-- A completion that answers a next state is a success or an error that is reported. -/
theorem State.complete_cases {s t : State} {e : Except ErrorKind Results}
    (h : s.complete e = .next t) :
    (∃ r, e = .ok r ∧ t = s.withBlk (s.blk.completeOk r)) ∨
      ∃ k, e = .error k ∧ k ≠ .addressConversionError ∧ t = s.withBlk (s.blk.completeErr k) := by
  rcases e with k | r
  · refine .inr ⟨k, rfl, ?_⟩
    by_cases hk : k = .addressConversionError
    · subst hk; simp [State.complete] at h
    · rw [s.complete_error hk] at h
      exact ⟨hk, (Host.Outcome.next.inj h).symm⟩
  · exact .inl ⟨r, rfl, (Host.Outcome.next.inj h).symm⟩

theorem State.runCommand_some {s : State} {p : Pending} (h : s.blk.pending = some p)
    (f : Pending → Except ErrorKind Results) : s.runCommand f = s.complete (f p) := by
  simp [State.runCommand, h]

theorem State.runCommand_none {s : State} (h : s.blk.pending = none)
    (f : Pending → Except ErrorKind Results) : s.runCommand f = .next s := by
  simp [State.runCommand, h]

/-- The state after an error is the spec's (60_exceptions.md R221, R224). -/
theorem State.withBlk_completeErr (s : State) (k : ErrorKind) :
    s.withBlk (s.blk.completeErr k) = s.afterError k.code := rfl

/-- The entries DECOMPOSE writes and the entries it keeps (44_decompose.md R187). -/
theorem overlay_get (l : List Cidr) (out : Vector OutEntry Config.outDepth)
    (i : Fin Config.outDepth) :
    (overlay l out)[i] = match l[i.val]? with | some c => c.toEntry | none => out[i] := by
  rw [Fin.getElem_fin]
  exact Vector.getElem_ofFn i.isLt

/-- The list a host reads back is the list that was written, when it fits the buffer and its fields. -/
theorem decomposition_overlay (b : Block) (l : List Cidr) (hl : l.length ≤ Config.outDepth)
    (hb : ∀ c ∈ l, c.addr < 2 ^ 128 ∧ c.bits < 2 ^ 8)
    (hcount : b.count = BitVec.ofNat 9 l.length) {out : Vector OutEntry Config.outDepth}
    (hout : b.out = overlay l out) : b.decomposition = l := by
  have hl' : l.length ≤ 256 := hl
  have hn : b.count.toNat = l.length := by
    rw [hcount, BitVec.toNat_ofNat]; exact Nat.mod_eq_of_lt (by omega)
  unfold Block.decomposition
  rw [hn, hout]
  apply List.ext_getElem
  · simp; omega
  · intro i h1 h2
    have hc := hb _ (List.getElem_mem h2)
    simp only [List.getElem_map, List.getElem_take, overlay, Vector.getElem_toList,
      Vector.getElem_ofFn, List.getElem?_eq_getElem h2, Cidr.toEntry, OutEntry.toCidr,
      BitVec.toNat_ofNat, Nat.mod_eq_of_lt hc.1, Nat.mod_eq_of_lt hc.2]

/-- The engine's turn on a legal word is that command (40_command.md R113). -/
theorem State.engineTurn_legal {s : State} {p : Pending} {i : Instr} (hr : s.rstN = true)
    (hp : s.blk.pending = some p) (hd : decode p.word = .ok i) : s.engineTurn = exec i s := by
  simp only [State.engineTurn, hr, hp, hd]

/-- The engine's turn on an illegal word is the completion with IllegalCommand (30_encoding.md R93). -/
theorem State.engineTurn_illegal {s : State} {p : Pending} {r : IllegalWord} (hr : s.rstN = true)
    (hp : s.blk.pending = some p) (hd : decode p.word = .error r) :
    s.engineTurn = .next (s.withBlk (s.blk.completeErr .illegalCommand)) := by
  simp only [State.engineTurn, hr, hp, hd]; rfl

/-- What the engine's turn can do: nothing, while nothing is in flight or the block is held in reset; or
the completion of the command in flight (40_command.md R112, R113). -/
theorem State.engineTurn_cases {s t : State} (h : s.engineTurn = .next t) :
    ((s.rstN = false ∨ s.blk.pending = none) ∧ t = s) ∨
      ∃ p, s.rstN = true ∧ s.blk.pending = some p ∧
        ((∃ i r, decode p.word = .ok i ∧ Instr.effect i p = .ok r ∧
            t = s.withBlk (s.blk.completeOk r)) ∨
          (∃ i k, decode p.word = .ok i ∧ Instr.effect i p = .error k ∧
            k ≠ .addressConversionError ∧ t = s.withBlk (s.blk.completeErr k)) ∨
          (∃ w, decode p.word = .error w ∧
            t = s.withBlk (s.blk.completeErr .illegalCommand))) := by
  unfold State.engineTurn at h
  split at h
  · next p hr hp =>
    refine .inr ⟨p, hr, hp, ?_⟩
    split at h
    · next i hi =>
      rw [exec_eq_runCommand, State.runCommand_some hp] at h
      rcases State.complete_cases h with ⟨r, h1, h2⟩ | ⟨k, h1, h2, h3⟩
      · exact .inl ⟨i, r, hi, h1, h2⟩
      · exact .inr (.inl ⟨i, k, hi, h1, h2, h3⟩)
    · next w hw => exact .inr (.inr ⟨w, hw, (Host.Outcome.next.inj h).symm⟩)
  · next hno =>
    refine .inl ⟨?_, (Host.Outcome.next.inj h).symm⟩
    rcases hr : s.rstN with _ | _
    · exact .inl rfl
    · rcases hp : s.blk.pending with _ | p
      · exact .inr rfl
      · exact absurd hp (hno p hr)

/-- A step is the engine's turn on an empty agenda, or the agenda's first event. -/
theorem step_cases {s t : State} (h : step s = .next t) :
    (s.agenda = [] ∧ s.engineTurn = .next t) ∨
      ∃ e rest, s.agenda = e :: rest ∧ ({ s with agenda := rest } : State).perform e = .next t := by
  unfold step at h
  split at h
  · next he => exact .inl ⟨he, h⟩
  · next e rest he => exact .inr ⟨e, rest, he, h⟩

end Sys2Proof.Machine
end

