-- ==== Sys2Proof/Laws/PerInstr.lean ====
section
/-! SUPPORT. The one statement made per command: the fields of its word (spec/30_encoding.md R90, R92). -/

namespace Sys2Proof.Laws

/-- The word of a well-formed command holds 0 in RSVD, its PLEN in bits 15:8 and its operation code in
bits 7:0 (30_encoding.md R90). -/
def WordFields.Statement (i : Instr) : Prop :=
  WellFormed i = true →
    rsvdField (encode i) = 0#16 ∧ plenField (encode i) = i.plen ∧ opcField (encode i) = opcode i

/-- The three fields of a word put together from its parts. -/
theorem fields_append (p : Nat) (hp : p < 256) (o : BitVec 8) :
    rsvdField (0#16 ++ BitVec.ofNat 8 p ++ o) = 0#16 ∧
      plenField (0#16 ++ BitVec.ofNat 8 p ++ o) = p ∧
      opcField (0#16 ++ BitVec.ofNat 8 p ++ o) = o := by
  have ho := o.isLt
  have hw : (0#16 ++ BitVec.ofNat 8 p ++ o : Word).toNat = p * 2 ^ 8 + o.toNat := by
    refine (BitVec.toNat_append (0#16 ++ BitVec.ofNat 8 p) o).trans ?_
    rw [← Nat.shiftLeft_add_eq_or_of_lt ho, BitVec.toNat_append, Nat.shiftLeft_eq]
    simp [Nat.mod_eq_of_lt hp]
  refine ⟨?_, ?_, ?_⟩
  · apply BitVec.eq_of_toNat_eq
    simp only [rsvdField, BitVec.extractLsb'_toNat, hw, Nat.shiftRight_eq_div_pow, BitVec.toNat_zero]
    omega
  · simp only [plenField, BitVec.extractLsb'_toNat, hw, Nat.shiftRight_eq_div_pow]
    omega
  · apply BitVec.eq_of_toNat_eq
    simp only [opcField, BitVec.extractLsb'_toNat, hw, Nat.shiftRight_eq_div_pow]
    omega

theorem wordFields_of_encode (i : Instr) : WordFields.Statement i := fun h =>
  fields_append i.plen (by simpa [WellFormed] using h) (opcode i)

theorem WordFields.cmp (n : Nat) : WordFields.Statement (.cmp n) := wordFields_of_encode _
theorem WordFields.mask2plen (n : Nat) : WordFields.Statement (.mask2plen n) := wordFields_of_encode _
theorem WordFields.plen2mask (n : Nat) : WordFields.Statement (.plen2mask n) := wordFields_of_encode _
theorem WordFields.addrmask2prefix (n : Nat) : WordFields.Statement (.addrmask2prefix n) :=
  wordFields_of_encode _
theorem WordFields.expand (n : Nat) : WordFields.Statement (.expand n) := wordFields_of_encode _
theorem WordFields.netmask (n : Nat) : WordFields.Statement (.netmask n) := wordFields_of_encode _
theorem WordFields.canon (n : Nat) : WordFields.Statement (.canon n) := wordFields_of_encode _
theorem WordFields.decompose (n : Nat) : WordFields.Statement (.decompose n) := wordFields_of_encode _
theorem WordFields.alignEnd (n : Nat) : WordFields.Statement (.alignEnd n) := wordFields_of_encode _
theorem WordFields.alignStart (n : Nat) : WordFields.Statement (.alignStart n) := wordFields_of_encode _
theorem WordFields.stepDown (n : Nat) : WordFields.Statement (.stepDown n) := wordFields_of_encode _
theorem WordFields.stepUp (n : Nat) : WordFields.Statement (.stepUp n) := wordFields_of_encode _

end Sys2Proof.Laws
end

