-- ==== Sys2Proof/Laws/RegMap.lean ====
section
/-! SUPPORT. The register map is one to one on the word-aligned offsets that are not reserved, and what
one host access can do (spec/10_state.md R22, R23; spec/20_memory.md R63 to R72). -/

namespace Sys2Proof.Machine

theorem Reg.offset_toNat_aligned (r : Reg) : r.offset.toNat % 4 = 0 := by
  cases r with
  | id | ctrl | cmd | status | lenA | lenB | rInfo | count => rfl
  | aW | bW | r0W | r1W | outAddr | outBits | outReserved =>
    simp only [Reg.offset, BitVec.toNat_ofNat]; omega

/-- The register at a register's offset is that register. -/
theorem Reg.ofOffset_offset (r : Reg) : Reg.ofOffset r.offset = some r := by
  cases r with
  | id | ctrl | cmd | status | lenA | lenB | rInfo | count => rfl
  | aW k | bW k | r0W k | r1W k => fin_cases k <;> rfl
  | outAddr i k =>
    have hi := i.isLt
    have hk := k.isLt
    have hn : (Reg.outAddr i k).offset.toNat = 0x1000 + 0x20 * i.val + 4 * k.val := by
      simp only [Reg.offset, BitVec.toNat_ofNat]; omega
    have h1 : (0x1000 + 0x20 * i.val + 4 * k.val - 0x1000) / 0x20 = i.val := by omega
    have h2 : (0x1000 + 0x20 * i.val + 4 * k.val) % 0x20 / 4 = k.val := by omega
    simp only [Reg.ofOffset, hn, h1, h2]
    rw [if_neg (by omega), if_neg (by omega), if_neg (by omega), if_neg (by omega),
      if_neg (by omega), if_neg (by omega), if_pos (by omega)]
    simp [Reg.ofEntryWord, Fin.ofNat, Nat.mod_eq_of_lt hi, Nat.mod_eq_of_lt hk]
  | outBits i =>
    have hi := i.isLt
    have hn : (Reg.outBits i).offset.toNat = 0x1000 + 0x20 * i.val + 0x10 := by
      simp only [Reg.offset, BitVec.toNat_ofNat]; omega
    have h1 : (0x1000 + 0x20 * i.val + 0x10 - 0x1000) / 0x20 = i.val := by omega
    have h2 : (0x1000 + 0x20 * i.val + 0x10) % 0x20 / 4 = 4 := by omega
    simp only [Reg.ofOffset, hn, h1, h2]
    rw [if_neg (by omega), if_neg (by omega), if_neg (by omega), if_neg (by omega),
      if_neg (by omega), if_neg (by omega), if_pos (by omega)]
    simp [Reg.ofEntryWord, Fin.ofNat, Nat.mod_eq_of_lt hi]
  | outReserved i k =>
    have hi := i.isLt
    have hk := k.isLt
    have hn : (Reg.outReserved i k).offset.toNat = 0x1000 + 0x20 * i.val + 0x14 + 4 * k.val := by
      simp only [Reg.offset, BitVec.toNat_ofNat]; omega
    have h1 : (0x1000 + 0x20 * i.val + 0x14 + 4 * k.val - 0x1000) / 0x20 = i.val := by omega
    have h2 : (0x1000 + 0x20 * i.val + 0x14 + 4 * k.val) % 0x20 / 4 = 5 + k.val := by omega
    simp only [Reg.ofOffset, hn, h1, h2]
    rw [if_neg (by omega), if_neg (by omega), if_neg (by omega), if_neg (by omega),
      if_neg (by omega), if_neg (by omega), if_pos (by omega)]
    simp only [Reg.ofEntryWord]
    rw [if_neg (by omega), if_neg (by omega)]
    simp [Fin.ofNat, Nat.mod_eq_of_lt hi, Nat.mod_eq_of_lt hk]

/-- A full-word access at a register's offset reaches that register. -/
theorem target_offset (r : Reg) : target r.offset 0b1111#4 = some r := by
  simp [target, admitted, Reg.offset_toNat_aligned, Reg.ofOffset_offset]

/-- What an admitted write can do to the block (20_memory.md R66 to R69, 40_command.md R110). -/
theorem Block.writeReg_cases (b : Block) (r : Reg) (v : Word) :
    b.writeReg r v = b.refuse ∨
      (r = .cmd ∧ b.busy = false ∧ b.writeReg r v = b.accept v) ∨
      (b.busy = false ∧ ∃ a lenA b' lenB,
        b.writeReg r v = { b with a := a, lenA := lenA, b := b', lenB := lenB }) ∨
      (r = .status ∧ b.writeReg r v = b.writeStatus v) ∨
      (r = .ctrl ∧ v.getLsbD 1 = true ∧ b.writeReg r v = b.softReset) ∨
      (r = .ctrl ∧ v.getLsbD 1 = false ∧ b.writeReg r v = { b with irqEn := v.getLsbD 0 }) := by
  cases r with
  | id | rInfo | count | r0W | r1W | outAddr | outBits | outReserved => exact .inl rfl
  | ctrl =>
    rcases h : v.getLsbD 1 with _ | _
    · exact .inr (.inr (.inr (.inr (.inr ⟨rfl, rfl, by rw [Block.writeReg, Block.writeCtrl, h]; rfl⟩))))
    · exact .inr (.inr (.inr (.inr (.inl ⟨rfl, rfl, by rw [Block.writeReg, Block.writeCtrl, h]; rfl⟩))))
  | status => exact .inr (.inr (.inr (.inl ⟨rfl, rfl⟩)))
  | cmd =>
    rcases h : b.busy with _ | _
    · exact .inr (.inl ⟨rfl, rfl, by simp [Block.writeReg, Block.whenIdle, h]⟩)
    · exact .inl (by simp [Block.writeReg, Block.whenIdle, h])
  | lenA | lenB | aW | bW =>
    rcases h : b.busy with _ | _
    · exact .inr (.inr (.inl ⟨rfl, _, _, _, _, by simp only [Block.writeReg, Block.whenIdle, h]; rfl⟩))
    · exact .inl (by simp [Block.writeReg, Block.whenIdle, h])

/-- What one transaction can do: nothing, return a word, set HOSTERR, or a write of a register. -/
theorem State.access_cases (s : State) (t : BusTxn) :
    s.access t = s ∨ s.access t = s.answerFree ∨
      (∃ v, s.access t = s.answer v) ∨
      s.access t = s.withBlk s.blk.refuse ∨
      s.access t = (s.withBlk s.blk.refuse).answer 0#32 ∨
      ∃ r, s.rstN = true ∧ t.sel = true ∧ t.we = true ∧ target t.off t.be = some r ∧
        s.access t = s.withBlk (s.blk.writeReg r t.wdata) := by
  unfold State.access
  split
  · exact .inl rfl
  · next hsel =>
    split
    · split
      · exact .inl rfl
      · exact .inr (.inl rfl)
    · next hr =>
      split
      · next hwe =>
        unfold State.hostWrite
        split
        · exact .inr (.inr (.inr (.inl rfl)))
        · next r hr' =>
          exact .inr (.inr (.inr (.inr (.inr ⟨r, by simpa using hr, by simpa using hsel, hwe, hr', rfl⟩))))
      · unfold State.hostRead
        split
        · exact .inr (.inr (.inr (.inr (.inl rfl))))
        · split
          · exact .inr (.inl rfl)
          · exact .inr (.inr (.inl ⟨_, rfl⟩))

end Sys2Proof.Machine
end

