-- ==== Sys2Proof/Tests/Slice0.lean ====
section
/-! SUPPORT. Tests: command words written out from 30_encoding.md R90 to R92, results taken from the
vectors of 95_test_vectors.md (named in each comment), and for every statement with hypotheses a
witness that meets them. -/

namespace Sys2Proof.Machine.Test
open Sys2Proof

/-! ### Helpers -/

/-- A block with nothing in flight, the given operands, and recognisable old results. -/
def idle (a : Value) (lenA : Len) (b : Value) (lenB : Len) : Block :=
  { Block.atReset (Vector.replicate 256 { addr := 7, bits := 7 }) with
    a := a, lenA := lenA, b := b, lenB := lenB, r0 := 99, rNum := 5, rLen := 4, count := 3 }

/-- A state with the block `b`, `rst_n` high, and `agenda` to come. -/
def stateOf (b : Block) (agenda : List Event) : State :=
  { blk := b, rstN := true, agenda := agenda, returned := [], draws := 1 }

/-- The command word `w` in flight on the given operands. -/
def flying (w : Word) (a : Value) (lenA : Len) (b : Value) (lenB : Len) : State :=
  stateOf ((idle a lenA b lenB).accept w) []

/-- A field of the block after one step. -/
def after {α : Type} (s : State) (f : Block → α) : Option α :=
  match step s with
  | .next t => some (f t.blk)
  | .fault _ => none
  | .refused _ => none

/-- STATUS after one step. -/
def status (s : State) : Option Word := after s Block.statusWord

/-- STATUS, R0, R1, RNUM and RLEN after one step. -/
def results (s : State) : Option (Word × Value × Value × Byte × Len) :=
  after s fun b => (b.statusWord, b.r0, b.r1, b.rNum, b.rLen)

/-- STATUS and the three flags after one step. -/
def flags (s : State) : Option (Word × Bool × Bool × Bool) :=
  after s fun b => (b.statusWord, b.cmpLt, b.cmpEq, b.cmpGt)

/-- STATUS, COUNT and RLEN after one step. -/
def counted (s : State) : Option (Word × BitVec 9 × Len) :=
  after s fun b => (b.statusWord, b.count, b.rLen)

/-- Entry `i` of OUT after one step. -/
def entry (s : State) (i : Fin 256) : Option OutEntry := after s fun b => b.out[i]

/-! ### Words, written as OPC in bits 7:0, PLEN in bits 15:8, RSVD in bits 31:16 (R90 to R92) -/

theorem test_decode_cmp :
    decode 0b0000000000000000_00011000_00000001#32 = .ok (.cmp 24) := by decide
theorem test_decode_mask2plen :
    decode 0b0000000000000000_00000000_00000010#32 = .ok (.mask2plen 0) := by decide
theorem test_decode_plen2mask :
    decode 0b0000000000000000_00100001_00000011#32 = .ok (.plen2mask 33) := by decide
theorem test_decode_addrmask2prefix :
    decode 0b0000000000000000_11111111_00000100#32 = .ok (.addrmask2prefix 255) := by decide
theorem test_decode_expand :
    decode 0b0000000000000000_00011000_00000101#32 = .ok (.expand 24) := by decide
theorem test_decode_netmask :
    decode 0b0000000000000000_10000001_00000110#32 = .ok (.netmask 129) := by decide
theorem test_decode_canon :
    decode 0b0000000000000000_00110000_00000111#32 = .ok (.canon 48) := by decide
theorem test_decode_decompose :
    decode 0b0000000000000000_10101010_00001000#32 = .ok (.decompose 170) := by decide
theorem test_decode_alignEnd :
    decode 0b0000000000000000_00000001_00001001#32 = .ok (.alignEnd 1) := by decide
theorem test_decode_alignStart :
    decode 0b0000000000000000_10000000_00001010#32 = .ok (.alignStart 128) := by decide
theorem test_decode_stepDown :
    decode 0b0000000000000000_00000000_00001011#32 = .ok (.stepDown 0) := by decide
theorem test_decode_stepUp :
    decode 0b0000000000000000_01000000_00001100#32 = .ok (.stepUp 64) := by decide
theorem test_decode_zero : decode 0#32 = .error .zeroOpcode := by decide
theorem test_decode_unassigned :
    decode 0b0000000000000000_00000000_00001101#32 = .error .unassignedOpcode ∧
      decode 0b0000000000000000_00000000_11111111#32 = .error .unassignedOpcode := by decide
theorem test_decode_reserved :
    decode 0b0000000000000001_00000000_00001000#32 = .error .reservedBits ∧
      decode 0b1000000000000000_00000000_00000001#32 = .error .reservedBits := by decide
theorem test_decodeTableWord :
    decodeTableWord 32 0x1805 = some (.expand 24) ∧ decodeTableWord 8 0x1805 = some (.expand 0) ∧
      decodeTableWord 32 0x10008 = none := by decide

/-! ### Well-formedness: the one check is PLEN < 256 (R91) -/

theorem test_wellFormed_refuses : WellFormed (.cmp 256) = false ∧ WellFormed (.expand 256) = false ∧
    WellFormed (.stepUp 1000) = false := by decide
theorem test_wellFormed_admits : WellFormed (.cmp 255) = true ∧ WellFormed (.expand 0) = true := by
  decide

/-! ### The commands -/

/-- V-CMP-1: 10.0.0.10 against 10.0.0.1. -/
theorem test_cmp_gt :
    flags (flying 0x01 0x0A00000A 4 0x0A000001 4) = some (0x2, false, false, true) := by decide
/-- V-CMP-6: the same integer in two families. -/
theorem test_cmp_family : status (flying 0x01 1 4 1 16) = some 0x206 := by decide
/-- V-M2P-4: 255.255.255.254. -/
theorem test_mask2plen_31 :
    results (flying 0x02 0xFFFFFFFE 4 0 0) = some (0x2, 99, 0, 31, 4) := by decide
/-- V-M2P-7: 255.0.255.0 is no mask, and nothing is written. -/
theorem test_mask2plen_hole :
    results (flying 0x02 0xFF00FF00 4 0 0) = some (0x406, 99, 0, 5, 4) := by decide
/-- V-P2M-5: PLEN 33 is legal for LEN 16. -/
theorem test_plen2mask_33 : results (flying 0x2103 0 16 0 0) =
    some (0x2, 0xFFFFFFFF800000000000000000000000, 0, 33, 16) := by decide
/-- V-P2M-4: PLEN 33 is not legal for LEN 4. -/
theorem test_plen2mask_long : status (flying 0x2103 0 4 0 0) = some 0x706 := by decide
/-- V-AM-1: the host bits of 192.168.1.77 are kept. -/
theorem test_addrmask2prefix : results (flying 0x04 0xC0A8014D 4 0xFFFFFF00 4) =
    some (0x2, 0xC0A8014D, 0, 24, 4) := by decide
/-- V-AM-6: the family is checked before the mask. -/
theorem test_addrmask2prefix_family :
    status (flying 0x04 0x0A000001 4 0xFF00FF00 16) = some 0x206 := by decide
/-- V-EX-2: 192.168.1.77/24. -/
theorem test_expand : results (flying 0x1805 0xC0A8014D 4 0 0) =
    some (0x2, 0xC0A80100, 0xC0A801FF, 24, 4) := by decide
/-- V-EX-9: an invalid A is reported before a long PLEN. -/
theorem test_expand_order : status (flying 0x2105 0x100000000 4 0 0) = some 0x106 := by decide
/-- V-NM-2: A's value does not matter. -/
theorem test_netmask : results (flying 0x1806 0xC0A8014D 4 0 0) =
    some (0x2, 0xFFFFFF00, 0, 24, 4) := by decide
/-- V-NM-7: LEN_A = 0 is checked. -/
theorem test_netmask_len : status (flying 0x1806 0x01020304 0 0 0) = some 0x106 := by decide
/-- V-CN-5: 2001:db8:1234:5678::9/48. -/
theorem test_canon : results (flying 0x3007 0x20010DB8123456780000000000000009 16 0 0) =
    some (0x2, 0x20010DB8123400000000000000000000, 0, 48, 16) := by decide
/-- V-CN-6: PLEN 40 for LEN 4. -/
theorem test_canon_long : status (flying 0x2807 0xC0A8014D 4 0 0) = some 0x706 := by decide
/-- V-DEC-12: [10.0.0.0, 10.0.0.254] has eight prefixes. -/
theorem test_decompose_count : counted (flying 0x08 0x0A000000 4 0x0A0000FE 4) =
    some (0x2, 8, 4) := by decide +kernel
/-- V-DEC-1: [10.0.0.0, 10.0.0.2] is 10.0.0.0/31, 10.0.0.2/32, and entry 2 is kept. -/
theorem test_decompose_entries :
    entry (flying 0x08 0x0A000000 4 0x0A000002 4) 0 = some { addr := 0x0A000000, bits := 31 } ∧
    entry (flying 0x08 0x0A000000 4 0x0A000002 4) 1 = some { addr := 0x0A000002, bits := 32 } ∧
    entry (flying 0x08 0x0A000000 4 0x0A000002 4) 2 = some { addr := 7, bits := 7 } := by
  decide +kernel
/-- V-AE-1: 10.0.0.255. -/
theorem test_alignEnd : results (flying 0x09 0x0A0000FF 4 0 0) = some (0x2, 99, 0, 8, 4) := by decide
/-- V-AE-4: 255.255.255.255. -/
theorem test_alignEnd_ones :
    results (flying 0x09 0xFFFFFFFF 4 0 0) = some (0x2, 99, 0, 32, 4) := by decide
/-- V-AS-2: zero gives W. -/
theorem test_alignStart_zero : results (flying 0x0A 0 4 0 0) = some (0x2, 99, 0, 32, 4) := by decide
/-- V-AS-6: 2001:db8::. -/
theorem test_alignStart : results (flying 0x0A 0x20010DB8000000000000000000000000 16 0 0) =
    some (0x2, 99, 0, 99, 16) := by decide
/-- V-SD-6: the alignment 3 of 10.0.0.7 is cut to 1 by the start. -/
theorem test_stepDown : results (flying 0x0B 0x0A000005 4 0x0A000007 4) =
    some (0x2, 0x0A000006, 0x0A000007, 31, 4) := by decide
/-- V-SD-7: the start is above the cursor. -/
theorem test_stepDown_range : status (flying 0x0B 0x0A00000A 4 0x0A000001 4) = some 0x306 := by decide
/-- V-SU-4: the alignment 25 of 10.0.0.0 is cut to 1 by the end. -/
theorem test_stepUp : results (flying 0x0C 0x0A000000 4 0x0A000002 4) =
    some (0x2, 0x0A000000, 0x0A000001, 31, 4) := by decide
/-- V-SU-5: the whole space. -/
theorem test_stepUp_all : results (flying 0x0C 0 4 0xFFFFFFFF 4) =
    some (0x2, 0, 0xFFFFFFFF, 0, 4) := by decide
/-- L6: an illegal word completes with IllegalCommand. -/
theorem test_illegal : results (flying 0x10008 0 4 0 4) = some (0x606, 99, 0, 5, 4) := by decide

/-! ### The host port -/

/-- One transaction: the block's STATUS after it and the newest word returned. -/
def touched (b : Block) (x : BusTxn) : Word × Option Word :=
  let t := (stateOf b []).access x
  (t.blk.statusWord, t.returned.head?)

/-- L1: ID reads its constant, and nothing is returned by a write. -/
theorem test_read_id : touched (idle 0 0 0 0) (readTxn 0x000) = (0x0, some 0x54430007) := by decide
/-- L6: CMD reads back as written, its RSVD bits too, while the command is in flight. -/
theorem test_read_cmd :
    touched ((idle 0 4 0 4).accept 0x10008) (readTxn 0x008) = (0x1, some 0x10008) := by decide
/-- L2: an unaligned read is refused with 0. -/
theorem test_read_unaligned : touched (idle 0 0 0 0) (readTxn 0x002) = (0x8, some 0) := by decide
/-- L2: a partial write is refused. -/
theorem test_write_partial : touched (idle 0 0 0 0)
    { writeTxn 0x010 4 with be := 0b0011#4 } = (0x8, none) := by decide
/-- L4: the reserved bits of LEN_A are not stored. -/
theorem test_write_lenA :
    (((stateOf (idle 0 0 0 0) []).access (writeTxn 0x010 0xFFFFFFE4)).blk.lenA) = 4 := by decide
/-- L7: a write of CMD while busy is refused. -/
theorem test_write_busy :
    touched ((idle 0x0A000001 4 0x0A0000FF 4).accept 8) (writeTxn 0x008 1) = (0x9, none) := by decide
/-- R66: word 2 of B alone is replaced. -/
theorem test_write_word :
    ((stateOf (idle 0 0 0x11111111222222223333333344444444 16) []).access
      (writeTxn 0x038 0xAABBCCDD)).blk.b = 0x11111111AABBCCDD3333333344444444 := by decide
/-- L10: SRST while busy abandons the command and clears the operands. -/
theorem test_soft_reset :
    ((stateOf ((idle 7 4 0 0).accept 9) []).access (writeTxn 0x004 3)).blk.pending = none ∧
      ((stateOf ((idle 7 4 0 0).accept 9) []).access (writeTxn 0x004 3)).blk.a = 0 ∧
      touched ((idle 7 4 0 0).accept 9) (writeTxn 0x004 3) = (0x0, none) := by decide
/-- R62 and R65: the last words of the map and of the window. -/
theorem test_map_ends : Reg.ofOffset 0x2FFC = some (.outReserved 255 2) ∧
    Reg.ofOffset 0x2FF0 = some (.outBits 255) ∧ Reg.ofOffset 0x3000 = none ∧
    Reg.ofOffset 0x05C = some (.r1W 3) ∧ Reg.ofOffset 0x060 = none := by decide
/-- The state after reset runs a word placed for it: CMD is stored and the engine is next. -/
theorem test_place : (State.reset.withFetchWord 32 0x1803).blk.cmd = 0x1803 ∧
    status (State.reset.withFetchWord 32 0x1803) = some 0x106 := by decide
/-- A word placed before other events runs first. -/
theorem test_place_first :
    ((stateOf (idle 0 4 0 0) [.resetLow]).withFetchWord 32 0x0803).agenda =
      [.engineTurn, .resetLow] := by decide

/-! ### Witnesses: states and operands that meet the hypotheses of the statements -/

/-- 10.0.0.1 and 10.0.0.255 as the pair of a range, in flight under the word `w`. -/
def range (w : Word) : State := flying w 0x0A000001 4 0x0A0000FF 4

/-- What `range w` has in flight. -/
def rangePending (w : Word) : Pending :=
  { word := w, a := 0x0A000001, lenA := 4, b := 0x0A0000FF, lenB := 4 }

/-- The whole space of the wide family, in flight under the word `w`. -/
def wide (w : Word) : State := flying w 0 16 (BitVec.allOnes 128) 16

/-- What `wide w` has in flight. -/
def widePending (w : Word) : Pending :=
  { word := w, a := 0, lenA := 16, b := BitVec.allOnes 128, lenB := 16 }

theorem witness_DecodeOfEncode :
    WellFormed (.cmp 0) = true ∧ WellFormed (.stepUp 255) = true := by decide
theorem witness_EncodeOfDecode :
    decode 0x0000FF0C#32 = .ok (.stepUp 255) ∧ decode 0x00000001#32 = .ok (.cmp 0) := by decide
theorem witness_DecoderFollowsOpcodeMap :
    (0x00010001#32).toNat / 65536 ≠ 0 ∧ (0x80000000#32).toNat / 65536 ≠ 0 ∧
    (∀ c ∈ [0x00#32, 0x01#32, 0x02#32, 0x03#32, 0x04#32, 0x05#32, 0x06#32, 0x07#32, 0x08#32, 0x09#32,
      0x0A#32, 0x0B#32, 0x0C#32, 0x0D#32, 0xFF#32], c.toNat / 65536 = 0) := by simp
theorem witness_IllegalWordCompletes :
    (0x00000000#32).toNat % 256 = 0 ∧ 0x0D ≤ (0x0000000D#32).toNat % 256 ∧
    (0x00010008#32).toNat / 65536 ≠ 0 ∧ (stateOf (idle 0 0 0 0) []).blk.busy = false ∧
    (flying 0x0D 0 0 0 0).blk.pending =
      some { word := 0x0D, a := 0, lenA := 0, b := 0, lenB := 0 } := by decide
theorem witness_PlenIsIgnored :
    (stateOf (idle 0 0 0 0) []).rstN = true ∧ (stateOf (idle 0 0 0 0) []).blk.busy = false ∧
    ∃ t, exec (.expand 24) (range 0x1805) = .next t := ⟨rfl, rfl, _, rfl⟩
/-- Every clause: a legal word and an illegal one, the engine next by either way, a transaction next. -/
theorem witness_StepRunsDecodedCommand :
    (range 0x1805).rstN = true ∧ (range 0x1805).blk.pending = some (rangePending 0x1805) ∧
    decode (rangePending 0x1805).word = .ok (.expand 24) ∧ (range 0x1805).agenda = [] ∧
    ({ range 0x1805 with agenda := [.engineTurn] } : State).agenda = [.engineTurn] ∧
    (range 0x10008).blk.pending = some (rangePending 0x10008) ∧
    decode (rangePending 0x10008).word = .error .reservedBits ∧ (range 0x10008).agenda = [] ∧
    (stateOf (idle 0 0 0 0) [.port (writeTxn 0x010 4)]).agenda = [.port (writeTxn 0x010 4)] := by decide
theorem witness_IdleKeepsState :
    (stateOf (idle 1 4 2 4) []).agenda = [] ∧ (stateOf (idle 1 4 2 4) []).blk.pending = none := by
  decide
theorem witness_CommandWriteIsAccepted :
    (stateOf (idle 1 4 2 4) []).rstN = true ∧ (stateOf (idle 1 4 2 4) []).blk.busy = false ∧
    (range 8).rstN = true ∧ (range 8).blk.busy = true := by decide
theorem witness_AcceptanceLatchesOperands :
    ∃ t, exec (.canon 24) (range 0x1807) = .next t ∧ t.blk.r0 ≠ (range 0x1807).blk.r0 :=
  ⟨_, rfl, by decide⟩
theorem witness_CompletionWritesOnlyResultsAndStatus :
    (range 0x1807).rstN = true ∧ (range 0x1807).blk.pending = some (rangePending 0x1807) ∧
    (∃ t, (range 0x1807).engineTurn = .next t ∧ t.blk.err = false) ∧
    ∃ t, (range 0x2107).engineTurn = .next t ∧ t.blk.err = true :=
  ⟨rfl, rfl, ⟨_, rfl, by decide⟩, _, rfl, by decide⟩

/-- The operands of the address commands: valid at both ends of both families, and not valid by length,
by value, or by family. -/
theorem witness_operands :
    ValidAddr 0 4 ∧ ValidAddr 0xFFFFFFFF 4 ∧ ValidAddr 0 16 ∧ ValidAddr (BitVec.allOnes 128) 16 ∧
    ¬ ValidAddr 0x100000000 4 ∧ ¬ ValidAddr 0 0 ∧ ¬ ValidAddr 0 5 ∧ ¬ ValidAddr 0 17 ∧
    (4#5 : Len) ≠ 16#5 := by decide
/-- For CmpCompares, DecomposeRejects (B below A) and both clauses of the two steps. -/
theorem witness_pairs :
    (range 1).blk.pending = some (rangePending 1) ∧ ValidPair (rangePending 1) ∧
    (rangePending 1).a.toNat ≤ (rangePending 1).b.toNat ∧
    (wide 1).blk.pending = some (widePending 1) ∧ ValidPair (widePending 1) ∧
    ValidPair { rangePending 1 with a := 0x0A000100 } ∧
    (0x0A0000FF#128).toNat < (0x0A000100#128).toNat := by decide
/-- A pair that fails each check of RejectsBadPair. -/
theorem witness_bad_pairs :
    ¬ ValidAddr (0x100000000 : Value) 4 ∧
    (ValidAddr (1 : Value) 4 ∧ ¬ ValidAddr (0x100000000 : Value) 4) ∧
    (ValidAddr (1 : Value) 4 ∧ ValidAddr (1 : Value) 16 ∧ (4 : Len) ≠ 16) ∧
    (flying 1 1 4 1 16).blk.pending =
      some { word := 1, a := 1, lenA := 4, b := 1, lenB := 16 } := by decide
theorem witness_Mask2plenMeasuresMask :
    (flying 2 0xFFFFFF00 4 0 0).blk.pending =
      some { word := 2, a := 0xFFFFFF00, lenA := 4, b := 0, lenB := 0 } ∧
    ValidAddr 0xFFFFFF00 4 ∧ (0xFFFFFF00#128).toNat = 2 ^ 32 - 2 ^ (32 - 24) ∧
    (0#128).toNat = 2 ^ 32 - 2 ^ (32 - 0) ∧ (0xFFFFFFFF#128).toNat = 2 ^ 32 - 2 ^ (32 - 32) ∧
    ValidAddr 0xFF00FF00 4 ∧ ∀ n ≤ 32, (0xFF00FF00#128).toNat ≠ 2 ^ 32 - 2 ^ (32 - n) := by decide
theorem witness_Plen2maskBuildsMask :
    ¬ ((0 : Len) = 4#5 ∨ (0 : Len) = 16#5) ∧ (8 * (4 : Len).toNat < 33) ∧ 32 ≤ 8 * (4 : Len).toNat ∧
    8 * (16 : Len).toNat < 129 ∧ 128 ≤ 8 * (16 : Len).toNat ∧
    (flying 0x2103 0 4 0 0).blk.pending =
      some { word := 0x2103, a := 0, lenA := 4, b := 0, lenB := 0 } := by decide
theorem witness_Addrmask2prefixPairs :
    ValidPair { word := 4, a := 1, lenA := 4, b := 0xFFFFFF00, lenB := 4 } ∧
    ValidPair { word := 4, a := 1, lenA := 4, b := 1, lenB := 4 } ∧
    (0xFFFFFF00#128).toNat = 2 ^ 32 - 2 ^ (32 - 24) ∧
    ∀ n ≤ 32, (1#128).toNat ≠ 2 ^ 32 - 2 ^ (32 - n) := by decide
/-- For ExpandGivesBlock, NetmaskGivesMask and CanonClearsHostBits: PLEN at W and above it. -/
theorem witness_prefixes :
    (range 0x2005).blk.pending = some (rangePending 0x2005) ∧
    ValidAddr (rangePending 0x2005).a (rangePending 0x2005).lenA ∧
    8 * (rangePending 0x2005).lenA.toNat < 33 ∧ 32 ≤ 8 * (rangePending 0x2005).lenA.toNat ∧
    ValidAddr (widePending 5).a (widePending 5).lenA ∧ 128 ≤ 8 * (widePending 5).lenA.toNat := by
  decide
/-- For AlignEndMeasures and AlignStartMeasures. -/
theorem witness_alignments :
    (wide 9).blk.pending = some (widePending 9) ∧ ValidAddr (widePending 9).a (widePending 9).lenA ∧
    (flying 10 0xFFFFFFFF 4 0 0).blk.pending =
      some { word := 10, a := 0xFFFFFFFF, lenA := 4, b := 0, lenB := 0 } ∧
    ValidAddr 0xFFFFFFFF 4 := by decide
theorem witness_DecomposeTilesMinimally :
    (range 8).blk.pending = some (rangePending 8) ∧ ValidPair (rangePending 8) ∧
    (rangePending 8).a.toNat ≤ (rangePending 8).b.toNat ∧
    (∀ c ∈ [(⟨0x0A000001, 32⟩ : Cidr)], c.bits ≤ 32) ∧
    ∀ x, (∃ c ∈ [(⟨0x0A000001, 32⟩ : Cidr)], c.Covers 32 x) ↔ 0x0A000001 ≤ x ∧ x ≤ 0x0A000001 := by
  refine ⟨by decide, by decide, by decide, by decide, fun x => ?_⟩
  simp only [List.mem_singleton, exists_eq_left, Cidr.Covers, Nat.sub_self, pow_zero, Nat.div_one]
  omega
/-- For DecomposeWritesBelowCount: both families, a range of one address and the whole space. -/
theorem witness_DecomposeWritesBelowCount :
    (wide 8).blk.pending = some (widePending 8) ∧ ValidPair (widePending 8) ∧
    (widePending 8).a.toNat ≤ (widePending 8).b.toNat ∧
    ValidPair { rangePending 8 with b := 0x0A000001 } ∧
    (0x0A000001#128).toNat ≤ (0x0A000001#128).toNat := by decide
/-- For DecomposeIsUnique, DecomposeCountIsBounded and DecomposeSizesAreUnimodal. -/
theorem witness_decompositions :
    ValidPair (rangePending 8) ∧ (rangePending 8).a.toNat ≤ (rangePending 8).b.toNat ∧
    (∃ t, exec (.decompose 0) (range 8) = .next t) ∧
    ValidPair { word := 8, a := 1, lenA := 4, b := 0xFFFFFFFE, lenB := 4 } ∧
    (0xFFFFFFFE#128).toNat = 2 ^ 32 - 2 ∧
    ∃ t, exec (.decompose 0) (flying 8 1 4 0xFFFFFFFE 4) = .next t :=
  ⟨by decide, by decide, ⟨_, rfl⟩, by decide, by decide, _, rfl⟩
/-- The second clause of DecomposeIsUnique: a tiling no longer than the decomposition. -/
theorem witness_DecomposeIsUnique :
    Tiles 32 0 [⟨0, 31⟩] 2 ∧
    counted (flying 8 0 4 1 4) = some (0x2, 1, 4) :=
  ⟨⟨rfl, by decide, by decide, show (_ : Nat) = _ by decide⟩, by decide +kernel⟩
theorem witness_DecomposeIsPure :
    (range 0xFF08).blk.pending = some (rangePending 0xFF08) ∧
    (range 8).blk.pending = some (rangePending 8) ∧
    (rangePending 0xFF08).a = (rangePending 8).a ∧ (rangePending 0xFF08).lenA = (rangePending 8).lenA ∧
    (rangePending 0xFF08).b = (rangePending 8).b ∧ (rangePending 0xFF08).lenB = (rangePending 8).lenB ∧
    (∃ t, exec (.decompose 255) (range 0xFF08) = .next t) ∧
    ∃ t, exec (.decompose 0) (range 8) = .next t :=
  ⟨rfl, rfl, rfl, rfl, rfl, rfl, ⟨_, rfl⟩, _, rfl⟩
/-- Both clauses of StepUpLoopIsDecompose: the block that ends at B, and one that does not. -/
theorem witness_StepUpLoopIsDecompose :
    (∃ t, exec (.stepUp 0) (wide 12) = .next t ∧ t.blk.r1 = (widePending 12).b) ∧
    (∃ t, exec (.stepUp 0) (range 12) = .next t ∧ t.blk.r1 ≠ (rangePending 12).b ∧
      (flying 8 (t.blk.r1 + 1) 4 0x0A0000FF 4).blk.pending =
        some { rangePending 8 with a := t.blk.r1 + 1 }) ∧
    ∃ u, exec (.decompose 0) (range 12) = .next u :=
  ⟨⟨_, rfl, by decide⟩, ⟨_, rfl, by decide, rfl⟩, _, rfl⟩
/-- Both clauses of StepDownLoopIsDecompose: the block that starts at A, and one that does not. -/
theorem witness_StepDownLoopIsDecompose :
    (∃ t, exec (.stepDown 0) (wide 11) = .next t ∧ t.blk.r0 = (widePending 11).a) ∧
    (∃ t, exec (.stepDown 0) (range 11) = .next t ∧ t.blk.r0 ≠ (rangePending 11).a ∧
      (flying 8 0x0A000001 4 (t.blk.r0 - 1) 4).blk.pending =
        some { rangePending 8 with b := t.blk.r0 - 1 }) ∧
    ∃ u, exec (.decompose 0) (range 11) = .next u :=
  ⟨⟨_, rfl, by decide⟩, ⟨_, rfl, by decide, rfl⟩, _, rfl⟩
theorem witness_MaskRoundTrip :
    (flying 0x1803 0 4 0 0).blk.pending =
      some { word := 0x1803, a := 0, lenA := 4, b := 0, lenB := 0 } ∧ 24 ≤ 8 * (4#5).toNat ∧
    ∃ t, exec (.plen2mask 24) (flying 0x1803 0 4 0 0) = .next t ∧
      (flying 2 t.blk.r0 4 0 0).blk.pending =
        some { word := 2, a := t.blk.r0, lenA := 4, b := 0, lenB := 0 } :=
  ⟨rfl, by decide, _, rfl, rfl⟩
/-- For ExpandCanonNetmaskAgree and ExpandIntervalIsBlock, at PLEN 0 and PLEN W. -/
theorem witness_ExpandIntervalIsBlock :
    (range 0x2005).blk.pending = some (rangePending 0x2005) ∧
    ValidAddr (rangePending 0x2005).a (rangePending 0x2005).lenA ∧
    32 ≤ 8 * (rangePending 0x2005).lenA.toNat ∧
    (∃ t, exec (.expand 32) (range 0x2005) = .next t) ∧
    ∃ t, exec (.expand 0) (range 5) = .next t :=
  ⟨by decide, by decide, by decide, ⟨_, rfl⟩, _, rfl⟩
theorem witness_CanonIsIdempotent :
    (range 0x1807).blk.pending = some (rangePending 0x1807) ∧
    ValidAddr (rangePending 0x1807).a (rangePending 0x1807).lenA ∧
    24 ≤ 8 * (rangePending 0x1807).lenA.toNat ∧
    ∃ t, exec (.canon 24) (range 0x1807) = .next t ∧
      (flying 0x1807 t.blk.r0 4 0 0).blk.pending =
        some { word := 0x1807, a := t.blk.r0, lenA := 4, b := 0, lenB := 0 } :=
  ⟨by decide, by decide, by decide, _, rfl, rfl⟩
theorem witness_AlignmentsAreDual :
    (range 9).blk.pending = some (rangePending 9) ∧ ValidAddr (rangePending 9).a (rangePending 9).lenA ∧
    (flying 10 0xF5FFFFFE 4 0 0).blk.pending =
      some { word := 10, a := 0xF5FFFFFE, lenA := 4, b := 0, lenB := 0 } ∧
    (0xF5FFFFFE#128).toNat = 2 ^ 32 - 1 - (rangePending 9).a.toNat := by decide

/-- Each clause of a refusal, at the ends of its range. -/
theorem witness_RefusedAccessSetsHostErr :
    (∀ x ∈ [readTxn 0x3FFF, { readTxn 0x000 with be := 0b0111#4 }, readTxn 0x060, readTxn 0x0FFC,
        readTxn 0x3000, readTxn 0x3FFC, writeTxn 0x000 0, writeTxn 0x018 0, writeTxn 0x01C 0,
        writeTxn 0x040 0, writeTxn 0x05C 0, writeTxn 0x1000 0, writeTxn 0x2FFC 0],
      x.sel = true ∧ Refused false x) ∧
    (∀ x ∈ [writeTxn 0x008 0, writeTxn 0x010 0, writeTxn 0x014 0, writeTxn 0x020 0, writeTxn 0x03C 0],
      x.sel = true ∧ Refused true x) ∧
    (stateOf (idle 0 0 0 0) []).rstN = true ∧ (stateOf (idle 0 0 0 0) []).blk.busy = false ∧
    (range 8).rstN = true ∧ (range 8).blk.busy = true := by
  unfold Refused; decide
theorem witness_ReadsHaveNoSideEffect :
    (stateOf (idle 0 0 0 0) []).rstN = true ∧ (stateOf (idle 0 0 0 0) []).blk.busy = false ∧
    (range 8).blk.busy = true ∧
    ∀ x ∈ [readTxn 0x000, readTxn 0x05C, readTxn 0x1000, readTxn 0x2FFC],
      x.sel = true ∧ x.we = false ∧ ¬ Refused false x ∧ ¬ Refused true x := by
  unfold Refused; decide
theorem witness_ReadsReturnStateOrFreeValue :
    (range 8).rstN = true ∧ (range 8).blk.busy = true ∧
    (∀ r ∈ [Reg.rInfo, .count, .r0W 0, .r1W 3, .outAddr 0 0, .outBits 255],
      ResultOffset r.offset.toNat) ∧
    (stateOf (idle 0 0 0 0) []).rstN = true ∧ (stateOf (idle 0 0 0 0) []).blk.busy = false := by
  unfold ResultOffset; decide
theorem witness_OperandWritesStore :
    (stateOf (idle 0 0 0 0) []).rstN = true ∧ (stateOf (idle 0 0 0 0) []).blk.busy = false := by decide
/-- For ControlAndStatusWrites and SoftResetKeepsOnlyOut, while busy. -/
theorem witness_ControlAndStatusWrites :
    (range 8).rstN = true ∧ (3#32).getLsbD 1 = true ∧ (1#32).getLsbD 1 = false := by decide
theorem witness_HardwareResetState :
    (stateOf (idle 1 4 0 0) [.resetLow]).agenda = [.resetLow] ∧
    ({ stateOf (idle 1 4 0 0) [.resetHigh] with rstN := false } : State).agenda = [.resetHigh] ∧
    ({ stateOf (idle 1 4 0 0) [.resetHigh] with rstN := false } : State).rstN = false ∧
    (readTxn 0).sel = true ∧ (readTxn 0).we = false ∧ (writeTxn 8 1).we = true := by decide
theorem witness_RegisterMapIsOneToOne :
    (∀ off ∈ [0x000#14, 0x05C#14, 0x060#14, 0xFFC#14, 0x1000#14, 0x2FFC#14, 0x3000#14, 0x3FFC#14],
      off.toNat % 4 = 0) ∧ (Reg.outBits 255).offset = (Reg.outBits 255).offset := by simp
/-- The first address above the window, and the window's two ends. -/
theorem witness_SystemAddressDecodes :
    Config.base + 0x4000 ≤ Config.base + 0x4000 ∧
    Config.base + 0x3FFF = Config.base + (0x3FFF#14).toNat ∧
    Config.base = Config.base + (0x0000#14).toNat ∧
    (stateOf (idle 0 0 0 0) [.system (Config.base + 0x4000) true 0b1111#4 0]).agenda =
      [.system (Config.base + 0x4000) true 0b1111#4 0] := ⟨le_rfl, rfl, rfl, rfl⟩
theorem witness_InterruptFollowsDone :
    (range 8).rstN = true ∧ (range 8).blk.pending = some (rangePending 8) ∧
    (∃ t, (range 8).engineTurn = .next t) ∧ (2#32).getLsbD 1 = true ∧ (0#32).getLsbD 0 = false ∧
    (stateOf (idle 0 0 0 0) []).blk.busy = false ∧
    (stateOf (idle 1 4 0 0) [.resetLow]).agenda = [.resetLow] ∧
    ∃ t, step (stateOf (idle 1 4 0 0) [.resetLow]) = .next t :=
  ⟨rfl, rfl, ⟨_, rfl⟩, by decide, by decide, rfl, rfl, _, rfl⟩
/-- A state with HOSTERR set whose next step clears it. -/
theorem witness_HostErrIsSticky :
    ∃ t, step (stateOf (idle 0 0 0 0).refuse [.port (writeTxn 0x00C 8)]) = .next t ∧
      (stateOf (idle 0 0 0 0).refuse [.port (writeTxn 0x00C 8)]).blk.hostErr = true ∧
      t.blk.hostErr = false := ⟨_, rfl, rfl, by decide⟩
/-- A step that changes a result and raises DONE, and one that changes an operand. -/
theorem witness_EngineWritesResultsHostWritesOperands :
    (∃ t, step (range 0x1807) = .next t ∧ ¬ t.blk.SameResults (range 0x1807).blk ∧
      (range 0x1807).blk.done = false ∧ t.blk.done = true) ∧
    ∃ t, step (stateOf (idle 0 0 0 0) [.port (writeTxn 0x010 4)]) = .next t ∧
      ¬ t.blk.SameOperands (stateOf (idle 0 0 0 0) [.port (writeTxn 0x010 4)]).blk :=
  ⟨⟨_, rfl, fun h => absurd h.1 (by decide), rfl, by decide⟩,
    _, rfl, fun h => absurd h.2.1 (by decide)⟩
/-- A command in flight with a read and a released reset pin before the engine's turn. -/
theorem witness_AcceptedCommandCompletes :
    (range 8).rstN = true ∧ (range 8).blk.busy = true ∧
    (range 8).blk.pending = some (rangePending 8) ∧
    (∀ e ∈ [Event.port (readTxn 0x00C), .resetHigh, .engineTurn].take
        (latency [Event.port (readTxn 0x00C), .resetHigh, .engineTurn] - 1),
      e.abandons = false) := by decide
theorem witness_OperandWriteRacesCompletion :
    (range 8).rstN = true ∧ (range 8).blk.busy = true ∧
    (range 8).blk.pending = some (rangePending 8) := by decide
/-- A state with a command in flight that satisfies the invariant, and its step. -/
theorem witness_InvariantKeptByStep : (range 8).Inv ∧ ∃ t, step (range 8) = .next t :=
  ⟨⟨⟨rfl, fun _ h => (Option.some.inj h).symm, fun _ => ⟨rfl, rfl⟩, by decide, by decide, by decide,
    by decide, by decide, by decide⟩, fun h => absurd h (by decide)⟩, _, rfl⟩
/-- A state whose one entry below COUNT is 0.0.0.0/32, about to be decomposed anew. -/
theorem witness_OutputStaysTiled :
    (stateOf { Block.atReset (Vector.replicate 256 { addr := 0, bits := 32 }) with count := 1 }
      []).blk.OutTiles ∧
    ∃ t, step (stateOf { Block.atReset (Vector.replicate 256 { addr := 0, bits := 32 }) with count := 1 }
      []) = .next t := by
  refine ⟨⟨32, 0, 1, .inl rfl, ?_⟩, _, rfl⟩
  have h : Block.decomposition
      { Block.atReset (Vector.replicate 256 { addr := 0, bits := 32 }) with count := 1 } =
      [{ addr := 0, bits := 32 }] := by
    change ((Vector.replicate 256 ({ addr := 0, bits := 32 } : OutEntry)).toList.take 1).map
      OutEntry.toCidr = _
    rw [Vector.toList_replicate, List.take_replicate]
    rfl
  exact h ▸ ⟨rfl, by decide, by decide, show (_ : Nat) = _ by decide⟩

end Sys2Proof.Machine.Test
end

section
/-! PROOFS. The frame of acceptance and of completion, and what it says of the engine's turn on a command
in flight (spec/00_scope.md R18, spec/40_command.md R113, spec/60_exceptions.md R224). -/

namespace Sys2Proof.Machine

/-! ### The frame of acceptance and of completion -/

/-- Acceptance latches the operands and clears the status; it writes no result (40_command.md R111). -/
theorem Block.accept_sameResults (b : Block) (w : Word) : (b.accept w).SameResults b :=
  ⟨rfl, rfl, rfl, rfl, rfl, rfl, rfl, rfl, rfl⟩

theorem Block.completeOk_sameOperands (b : Block) (r : Results) :
    (b.completeOk r).SameOperands b :=
  ⟨rfl, rfl, rfl, rfl, rfl⟩

theorem Block.completeErr_sameOperands (b : Block) (k : ErrorKind) :
    (b.completeErr k).SameOperands b :=
  ⟨rfl, rfl, rfl, rfl, rfl⟩

/-- A command that fails writes no result (60_exceptions.md R224). -/
theorem Block.completeErr_sameResults (b : Block) (k : ErrorKind) :
    (b.completeErr k).SameResults b :=
  ⟨rfl, rfl, rfl, rfl, rfl, rfl, rfl, rfl, rfl⟩

/-- Code 0 is "no error": no error kind reports it (60_exceptions.md R220). -/
theorem ErrorKind.code_ne_zero (k : ErrorKind) : k.code ≠ 0 := by
  cases k <;> decide

/-! ### The engine's turn on a command in flight -/

/-- With a command in flight the engine's turn cannot pass: it completes the command, legal or illegal,
with a success or with an error (40_command.md R112, R113). -/
theorem State.engineTurn_completes {s t : State} {p : Pending} (hr : s.rstN = true)
    (hp : s.blk.pending = some p) (h : s.engineTurn = .next t) :
    (∃ r, t = s.withBlk (s.blk.completeOk r)) ∨ ∃ k, t = s.withBlk (s.blk.completeErr k) := by
  rcases State.engineTurn_cases h with ⟨hidle, -⟩ | ⟨q, -, -, hturn⟩
  · simp [hr, hp] at hidle
  · rcases hturn with ⟨-, r, -, -, ht⟩ | ⟨-, k, -, -, -, ht⟩ | ⟨-, -, ht⟩
    · exact .inl ⟨r, ht⟩
    · exact .inr ⟨k, ht⟩
    · exact .inr ⟨_, ht⟩

/-- Settles O12: the engine's turn is one of the two completions, and each has its frame. -/
theorem completionWritesOnlyResultsAndStatus : Obligations.CompletionWritesOnlyResultsAndStatus := by
  intro s t p hr hp h
  rcases State.engineTurn_completes hr hp h with ⟨r, rfl⟩ | ⟨k, rfl⟩
  case inl =>
    have hcode : (s.blk.completeOk r).err = true ↔ (s.blk.completeOk r).errCode ≠ 0 := by simp
    have hresults : (s.blk.completeOk r).err = true → (s.blk.completeOk r).SameResults s.blk := by
      simp
    exact ⟨rfl, rfl, rfl, hcode, s.blk.completeOk_sameOperands r, rfl, rfl, rfl, rfl, rfl, rfl,
      hresults, s.blk.accept_sameResults⟩
  case inr =>
    have hcode : (s.blk.completeErr k).err = true ↔ (s.blk.completeErr k).errCode ≠ 0 := by
      simpa using k.code_ne_zero
    exact ⟨rfl, rfl, rfl, hcode, s.blk.completeErr_sameOperands k, rfl, rfl, rfl, rfl, rfl, rfl,
      fun _ => s.blk.completeErr_sameResults k, s.blk.accept_sameResults⟩

end Sys2Proof.Machine
end

section
/-! PROOFS. The host port: what an access does by the register it reaches, which accesses reach none, and
what a write stores (spec/10_state.md R23, R28, R29; spec/20_memory.md R63 to R69). -/

namespace Sys2Proof.Machine

/-! ### The register an access reaches -/

/-- The converse of `Reg.ofOffset_offset` on the word-aligned offsets: the map names a register only at
that register's offset (10_state.md R23). -/
theorem Reg.offset_eq_of_ofOffset {off : BitVec 14} {r : Reg} (ha : off.toNat % 4 = 0)
    (h : Reg.ofOffset off = some r) : r.offset = off := by
  apply BitVec.eq_of_toNat_eq
  simp only [Reg.ofOffset] at h
  split at h
  case isTrue hlow =>
    have hoff : off.toNat = 4 * (off.toNat / 4) := by omega
    have hword : off.toNat / 4 < 8 := by omega
    generalize off.toNat / 4 = q at h hoff hword
    interval_cases q <;> cases h <;> exact hoff.symm
  case isFalse hlow =>
    split_ifs at h with hA hB hR0 hR1 hgap hout
    case pos | pos | pos | pos =>
      cases h
      simp only [Reg.offset, BitVec.toNat_ofNat, Fin.val_ofNat]
      omega
    case pos =>
      cases h
      unfold Reg.ofEntryWord
      split_ifs with haddr hbits
      all_goals
        simp only [Reg.offset, BitVec.toNat_ofNat, Fin.val_ofNat]
        omega

/-- No register lies at a reserved offset (20_memory.md R65). -/
theorem Reg.offset_toNat_unreserved (r : Reg) :
    r.offset.toNat < 0x060 ∨ (0x1000 ≤ r.offset.toNat ∧ r.offset.toNat < 0x3000) := by
  cases r with
  | id | ctrl | cmd | status | lenA | lenB | rInfo | count => decide
  | aW | bW | r0W | r1W | outAddr | outBits | outReserved =>
    simp only [Reg.offset, BitVec.toNat_ofNat]
    omega

/-- An access that reaches a register is a full word at that register's offset (20_memory.md R63). -/
theorem target_eq_some {off : BitVec 14} {be : BitVec 4} {r : Reg} (h : target off be = some r) :
    off = r.offset ∧ be = 0b1111#4 := by
  unfold target admitted at h
  split at h
  case isTrue hshape =>
    simp only [Bool.and_eq_true, beq_iff_eq] at hshape
    exact ⟨(Reg.offset_eq_of_ofOffset hshape.1 h).symm, hshape.2⟩
  case isFalse => cases h

/-! ### An addressed access while `rst_n` is high -/

section access
variable {s : State} {x : BusTxn} {r : Reg}

/-- An access that reaches no register is refused (20_memory.md R64). -/
theorem State.access_of_target_none (hr : s.rstN = true) (hsel : x.sel = true)
    (h : target x.off x.be = none) :
    s.access x =
      if x.we then s.withBlk s.blk.refuse else (s.withBlk s.blk.refuse).answer 0#32 := by
  simp [State.access, State.hostWrite, State.hostRead, hr, hsel, h]

/-- A write that reaches a register is that register's write (20_memory.md R66 to R69). -/
theorem State.access_write_of_target (hr : s.rstN = true) (hsel : x.sel = true) (hwe : x.we = true)
    (h : target x.off x.be = some r) : s.access x = s.withBlk (s.blk.writeReg r x.wdata) := by
  simp [State.access, State.hostWrite, hr, hsel, hwe, h]

/-- A full-word write at a register's offset does to the block what that register's write does. -/
theorem State.access_writeTxn_offset (hr : s.rstN = true) (r : Reg) {v : Word} {b : Block}
    (hb : s.blk.writeReg r v = b) : s.access (writeTxn r.offset v) = s.withBlk b :=
  hb ▸ State.access_write_of_target hr rfl rfl (target_offset r)

end access

/-! ### Refused accesses -/

/-- Of the accesses that reach a register only a write is refused, to a read-only register, or to an
operand register or CMD while busy (20_memory.md R67, R68). -/
theorem Block.writeReg_of_refused {b : Block} {x : BusTxn} {r : Reg} (hx : Refused b.busy x)
    (h : target x.off x.be = some r) (v : Word) : x.we = true ∧ b.writeReg r v = b.refuse := by
  obtain ⟨hoff, hbe⟩ := target_eq_some h
  have haligned := r.offset_toNat_aligned
  have hreg := r.offset_toNat_unreserved
  rw [Refused, hoff] at hx
  obtain hshape | hshape | hgap | hgap | ⟨hwe, hreadOnly⟩ | ⟨hwe, hbusy, hoperand⟩ := hx
  · exact absurd haligned hshape
  · exact absurd hbe hshape
  · omega
  · omega
  · refine ⟨hwe, ?_⟩
    cases r with
    | id | rInfo | count | r0W | r1W | outAddr | outBits | outReserved => rfl
    | ctrl | cmd | status | lenA | lenB => simp [Reg.offset] at hreadOnly
    | aW | bW =>
      simp only [Reg.offset, BitVec.toNat_ofNat] at hreadOnly
      omega
  · refine ⟨hwe, ?_⟩
    cases r with
    | cmd | lenA | lenB | aW | bW => exact if_pos hbusy
    | id | ctrl | status | rInfo | count => simp [Reg.offset] at hoperand
    | r0W | r1W | outAddr | outBits | outReserved =>
      simp only [Reg.offset, BitVec.toNat_ofNat] at hoperand
      omega

/-- Settles O38: an access that reaches no register is refused by its shape or its offset, and one that
reaches a register is refused by that register's write. -/
theorem refusedAccessSetsHostErr : Obligations.RefusedAccessSetsHostErr := by
  intro s x hr hsel hx
  rcases htarget : target x.off x.be with _ | r
  case none =>
    rw [State.access_of_target_none hr hsel htarget]
    cases x.we <;> rfl
  case some =>
    obtain ⟨hwe, hwrite⟩ := Block.writeReg_of_refused hx htarget x.wdata
    rw [State.access_write_of_target hr hsel hwe htarget, hwrite, hwe]
    rfl

/-! ### The words of A and B -/

/-- The bits of a value with word `k` replaced: those of the new word at `32k+31 : 32k`, the old ones
elsewhere (20_memory.md R66). -/
theorem replaceWord_getLsbD (v : Value) (k : Fin 4) (w : Word) {m : Nat} (hm : m < 128) :
    (replaceWord v k w).getLsbD m =
      if 32 * k.val ≤ m ∧ m < 32 * k.val + 32 then w.getLsbD (m - 32 * k.val) else v.getLsbD m := by
  have hmask (j : Nat) : (0xFFFFFFFF#128).getLsbD j = decide (j < 32) := by
    rw [show 0xFFFFFFFF#128 = (BitVec.allOnes 32).setWidth 128 from rfl, BitVec.getLsbD_setWidth,
      BitVec.getLsbD_allOnes]
    grind
  simp only [replaceWord, BitVec.getLsbD_or, BitVec.getLsbD_and, BitVec.getLsbD_not,
    BitVec.getLsbD_shiftLeft, hmask, BitVec.truncate_eq_setWidth, BitVec.getLsbD_setWidth]
  rcases Nat.lt_or_ge m (32 * k.val) with hbelow | hle
  case inl => simp [hm, hbelow]
  case inr =>
    have hnot : ¬ m < 32 * k.val := Nat.not_lt.mpr hle
    have hsub : m - 32 * k.val < 128 := by omega
    rcases Nat.lt_or_ge m (32 * k.val + 32) with hinside | habove
    case inl =>
      have hmasked : m - 32 * k.val < 32 := by omega
      simp [hm, hnot, hle, hsub, hinside, hmasked]
    case inr =>
      have hkept : ¬ m - 32 * k.val < 32 := by omega
      have hzero : w.getLsbD (m - 32 * k.val) = false := BitVec.getLsbD_of_ge _ _ (by omega)
      simp [hm, hnot, Nat.not_lt.mpr habove, hkept, hzero]

theorem wordOf_replaceWord_same (v : Value) (k : Fin 4) (w : Word) :
    wordOf (replaceWord v k w) k = w := by
  apply BitVec.eq_of_getLsbD_eq
  intro i hi
  rw [wordOf, BitVec.getLsbD_extractLsb', replaceWord_getLsbD _ _ _ (by omega), if_pos (by omega)]
  simp [hi]

theorem wordOf_replaceWord_of_ne (v : Value) {j k : Fin 4} (w : Word) (hjk : j ≠ k) :
    wordOf (replaceWord v k w) j = wordOf v j := by
  apply BitVec.eq_of_getLsbD_eq
  intro i hi
  rw [wordOf, wordOf, BitVec.getLsbD_extractLsb', BitVec.getLsbD_extractLsb',
    replaceWord_getLsbD _ _ _ (by omega), if_neg (by omega)]

/-! ### Operand, CTRL and STATUS writes -/

theorem Block.whenIdle_idle {b : Block} (hb : b.busy = false) (f : Block → Block) :
    b.whenIdle f = f b := by
  simp [Block.whenIdle, hb]

section idle
variable {b : Block} (hb : b.busy = false) (v : Word)
include hb

theorem Block.writeReg_lenA_idle : b.writeReg .lenA v = { b with lenA := v.setWidth 5 } := by
  rw [Block.writeReg, Block.whenIdle_idle hb]

theorem Block.writeReg_lenB_idle : b.writeReg .lenB v = { b with lenB := v.setWidth 5 } := by
  rw [Block.writeReg, Block.whenIdle_idle hb]

theorem Block.writeReg_aW_idle (k : Fin 4) :
    b.writeReg (.aW k) v = { b with a := replaceWord b.a k v } := by
  rw [Block.writeReg, Block.whenIdle_idle hb]

theorem Block.writeReg_bW_idle (k : Fin 4) :
    b.writeReg (.bW k) v = { b with b := replaceWord b.b k v } := by
  rw [Block.writeReg, Block.whenIdle_idle hb]

end idle

/-- A length register keeps the low five bits of the word (20_memory.md R66). -/
theorem setWidth_five_eq_ofNat (v : Word) : v.setWidth 5 = BitVec.ofNat 5 (v.toNat % 32) := by
  apply BitVec.eq_of_toNat_eq
  simp

/-- Settles O42: an idle operand write is the register's update, and `replaceWord` changes one word. -/
theorem operandWritesStore : Obligations.OperandWritesStore := by
  intro s v hr hidle
  rw [← setWidth_five_eq_ofNat]
  refine ⟨?lenA, ?lenB, fun k => ⟨⟨replaceWord s.blk.a k v, ?aWord, ?_, ?_⟩,
    ⟨replaceWord s.blk.b k v, ?bWord, ?_, ?_⟩⟩⟩
  case lenA => exact State.access_writeTxn_offset hr .lenA (Block.writeReg_lenA_idle hidle v)
  case lenB => exact State.access_writeTxn_offset hr .lenB (Block.writeReg_lenB_idle hidle v)
  case aWord => exact State.access_writeTxn_offset hr (.aW k) (Block.writeReg_aW_idle hidle v k)
  case bWord => exact State.access_writeTxn_offset hr (.bW k) (Block.writeReg_bW_idle hidle v k)
  case refine_1 | refine_3 => exact wordOf_replaceWord_same _ k v
  case refine_2 | refine_4 => exact fun _ => wordOf_replaceWord_of_ne _ v

/-- Bit 1 of a CTRL write is SRST (10_state.md R29). -/
theorem Block.writeCtrl_srst (b : Block) {v : Word} (h : v.getLsbD 1 = true) :
    b.writeCtrl v = Block.atReset b.out := if_pos h

theorem Block.writeCtrl_irqEn (b : Block) {v : Word} (h : v.getLsbD 1 = false) :
    b.writeCtrl v = { b with irqEn := v.getLsbD 0 } := if_neg (Bool.eq_false_iff.mp h)

/-- Bits 1 and 3 of a STATUS write clear DONE and HOSTERR where they are set (10_state.md R28). -/
theorem Block.writeStatus_eq (b : Block) (v : Word) :
    b.writeStatus v = { b with
      done := if v.getLsbD 1 then false else b.done
      hostErr := if v.getLsbD 3 then false else b.hostErr } := by
  have hclear (c d : Bool) : (d && !c) = if c then false else d := by cases c <;> simp
  rw [Block.writeStatus, hclear, hclear]

/-- Settles O43: CTRL and STATUS are written whether the block is idle or busy. -/
theorem controlAndStatusWrites : Obligations.ControlAndStatusWrites := by
  intro s v hr
  refine ⟨fun hsrst => ?_, fun hsrst => ?_, ?_⟩
  · exact State.access_writeTxn_offset hr .ctrl (s.blk.writeCtrl_srst hsrst)
  · exact State.access_writeTxn_offset hr .ctrl (s.blk.writeCtrl_irqEn hsrst)
  · exact State.access_writeTxn_offset hr .status (s.blk.writeStatus_eq v)

end Sys2Proof.Machine
end

section
/-! PROOFS. The decoder by the three fields of a word, the illegal words, and the commands that do not
read PLEN (spec/30_encoding.md R90 to R96). -/

namespace Sys2Proof

/-! ### The fields of a word as numbers -/

@[simp] theorem opcField_toNat (w : Word) : (opcField w).toNat = w.toNat % 256 := by
  simp [opcField]

theorem plenField_eq (w : Word) : plenField w = w.toNat / 256 % 256 := by
  simp [plenField, Nat.shiftRight_eq_div_pow]

theorem rsvdField_eq_zero_iff (w : Word) : rsvdField w = 0#16 ↔ w.toNat / 65536 = 0 := by
  have hw := w.isLt
  rw [← BitVec.toNat_inj, rsvdField, BitVec.extractLsb'_toNat, Nat.shiftRight_eq_div_pow,
    BitVec.toNat_zero]
  omega

/-! ### The decoder by fields -/

/-- The whole of R96's table in one line: a word decodes to `i` exactly when its RSVD is 0, its OPC is
the operation code of `i` and its PLEN is that of `i` (30_encoding.md R90, R92, R96). -/
theorem decode_eq_ok_iff (w : Word) (i : Instr) :
    decode w = .ok i ↔ rsvdField w = 0#16 ∧ opcField w = opcode i ∧ plenField w = i.plen := by
  constructor
  case mp =>
    intro h
    unfold decode at h
    split at h
    case isTrue => cases h
    case isFalse hrsvd =>
      split at h <;> cases h
      all_goals exact ⟨not_not.mp hrsvd, BitVec.eq_of_toNat_eq ‹_›, rfl⟩
  case mpr =>
    rintro ⟨hrsvd, hopc, hplen⟩
    rw [decode, if_neg (not_not.mpr hrsvd), hopc, hplen]
    cases i <;> rfl

/-- The operation codes in use are 0x01..0x0C (30_encoding.md R92). -/
theorem opcode_toNat_mem_Icc (i : Instr) : (opcode i).toNat ∈ Set.Icc 0x01 0x0C := by
  cases i <;> simp [opcode]

theorem decode_of_fields {w : Word} (i : Instr) (hrsvd : w.toNat / 65536 = 0)
    (hopc : w.toNat % 256 = (opcode i).toNat) (hplen : w.toNat / 256 % 256 = i.plen) :
    decode w = .ok i :=
  (decode_eq_ok_iff w i).mpr ⟨(rsvdField_eq_zero_iff w).mpr hrsvd,
    BitVec.eq_of_toNat_eq ((opcField_toNat w).trans hopc), (plenField_eq w).trans hplen⟩

/-- A word of R93 is illegal: a command would need RSVD 0 and one of the twelve operation codes. -/
theorem decode_illegal {w : Word}
    (h : w.toNat % 256 = 0 ∨ 0x0D ≤ w.toNat % 256 ∨ w.toNat / 65536 ≠ 0) :
    ∃ r, decode w = .error r := by
  rcases hd : decode w with r | i
  case error => exact ⟨r, rfl⟩
  case ok =>
    obtain ⟨hrsvd, hopc, -⟩ := (decode_eq_ok_iff w i).mp hd
    have hzero := (rsvdField_eq_zero_iff w).mp hrsvd
    obtain ⟨hlow, hhigh⟩ := opcode_toNat_mem_Icc i
    rw [← hopc, opcField_toNat] at hlow hhigh
    omega

/-- Settles O3: each row of the table is `decode_of_fields` at its command, every other word is one of
`decode_illegal`. -/
theorem decoderFollowsOpcodeMap : Obligations.DecoderFollowsOpcodeMap := by
  intro w opc p
  refine ⟨fun hrsvd => decode_illegal (.inr (.inr hrsvd)), fun hrsvd => ?_⟩
  have hrow (i : Instr) (hopc : opc = (opcode i).toNat) (hplen : p = i.plen) : decode w = .ok i :=
    decode_of_fields i hrsvd hopc hplen
  exact ⟨(hrow (.cmp p) · rfl), (hrow (.mask2plen p) · rfl), (hrow (.plen2mask p) · rfl),
    (hrow (.addrmask2prefix p) · rfl), (hrow (.expand p) · rfl), (hrow (.netmask p) · rfl),
    (hrow (.canon p) · rfl), (hrow (.decompose p) · rfl), (hrow (.alignEnd p) · rfl),
    (hrow (.alignStart p) · rfl), (hrow (.stepDown p) · rfl), (hrow (.stepUp p) · rfl),
    fun hopc => decode_illegal (hopc.imp_right .inl)⟩

end Sys2Proof

namespace Sys2Proof.Machine

/-! ### A command written while idle -/

theorem Block.writeReg_cmd_idle {b : Block} (hb : b.busy = false) (w : Word) :
    b.writeReg .cmd w = b.accept w := by
  rw [Block.writeReg, Block.whenIdle_idle hb]

/-- A word written to CMD while idle is accepted, legal or not (40_command.md R110). -/
theorem State.access_writeTxn_cmd_idle {s : State} (hr : s.rstN = true) (hidle : s.blk.busy = false)
    (w : Word) : s.access (writeTxn 0x008 w) = s.withBlk (s.blk.accept w) :=
  State.access_writeTxn_offset hr .cmd (Block.writeReg_cmd_idle hidle w)

/-- Settles O5: the word is not in the decoder's table, its write is an acceptance as any other, and the
engine's turn on it is the completion with IllegalCommand. -/
theorem illegalWordCompletes : Obligations.IllegalWordCompletes := by
  intro w hw
  obtain ⟨r, hdecode⟩ := decode_illegal hw
  refine ⟨⟨r, hdecode⟩, fun s hr hidle => ?accepted, fun s p hr hp hword => ?completed⟩
  case accepted =>
    rw [State.access_writeTxn_cmd_idle hr hidle]
    exact ⟨rfl, rfl, rfl⟩
  case completed =>
    subst hword
    exact State.engineTurn_illegal hr hp hdecode

/-! ### What a command reads of its word, and the CMD word it keeps -/

/-- A command is its effect: two commands of the same effect answer the same on every state. -/
theorem exec_congr {i j : Instr} (h : Instr.effect i = Instr.effect j) (s : State) :
    exec i s = exec j s := by
  rw [exec_eq_runCommand, exec_eq_runCommand, h]

/-- What a command can do to the state: nothing, with no command in flight, or one of the two
completions (40_command.md R112, R113). -/
theorem exec_cases {i : Instr} {s t : State} (h : exec i s = .next t) :
    (s.blk.pending = none ∧ t = s) ∨ (∃ r, t = s.withBlk (s.blk.completeOk r)) ∨
      ∃ k, t = s.withBlk (s.blk.completeErr k) := by
  rw [exec_eq_runCommand] at h
  rcases hp : s.blk.pending with _ | p
  case none =>
    rw [State.runCommand_none hp] at h
    exact .inl ⟨rfl, (Host.Outcome.next.inj h).symm⟩
  case some =>
    rw [State.runCommand_some hp] at h
    rcases State.complete_cases h with ⟨r, -, ht⟩ | ⟨k, -, -, ht⟩
    · exact .inr (.inl ⟨r, ht⟩)
    · exact .inr (.inr ⟨k, ht⟩)

/-- No command changes CMD (30_encoding.md R94). -/
theorem exec_cmd {i : Instr} {s t : State} (h : exec i s = .next t) : t.blk.cmd = s.blk.cmd := by
  rcases exec_cases h with ⟨-, rfl⟩ | ⟨r, rfl⟩ | ⟨k, rfl⟩ <;> rfl

/-- Settles O6: the effect of each of the eight commands does not name PLEN, and CMD is written by an
acceptance alone. -/
theorem plenIsIgnored : Obligations.PlenIsIgnored := by
  refine ⟨fun n m s => ?sameResult, fun s w hr hidle => ?accepted, fun i s t => exec_cmd⟩
  case sameResult =>
    exact ⟨exec_congr rfl s, exec_congr rfl s, exec_congr rfl s, exec_congr rfl s, exec_congr rfl s,
      exec_congr rfl s, exec_congr rfl s, exec_congr rfl s⟩
  case accepted => rw [State.access_writeTxn_cmd_idle hr hidle, State.withBlk_blk, Block.accept_cmd]

end Sys2Proof.Machine
end

section
/-! PROOFS. A CMD write while idle and while busy, and why a completion cannot see the live operand
registers (spec/40_command.md R110, R111; spec/20_memory.md R67). -/

namespace Sys2Proof.Machine

/-! ### A CMD write while busy -/

theorem Block.whenIdle_busy {b : Block} (hb : b.busy = true) (f : Block → Block) :
    b.whenIdle f = b.refuse := if_pos hb

theorem Block.writeReg_cmd_busy {b : Block} (hb : b.busy = true) (w : Word) :
    b.writeReg .cmd w = b.refuse := by
  rw [Block.writeReg, Block.whenIdle_busy hb]

/-- A word written to CMD while busy starts nothing: the write is refused (20_memory.md R67). -/
theorem State.access_writeTxn_cmd_busy {s : State} (hr : s.rstN = true) (hbusy : s.blk.busy = true)
    (w : Word) : s.access (writeTxn 0x008 w) = s.withBlk s.blk.refuse :=
  State.access_writeTxn_offset hr .cmd (Block.writeReg_cmd_busy hbusy w)

/-- Settles O10: while idle the whole-state equation is acceptance written out, while busy refusal. -/
theorem commandWriteIsAccepted : Obligations.CommandWriteIsAccepted := by
  intro s w hr
  refine ⟨fun hidle => ?accepted, fun hbusy => ?refused⟩
  case accepted =>
    rw [State.access_writeTxn_cmd_idle hr hidle]
    rfl
  case refused =>
    rw [State.access_writeTxn_cmd_busy hr hbusy]
    rfl

/-! ### Other contents of the live registers

The two completions commute with a change of the operand registers and CMD, and PENDING is none of
them, so the effect is run on the same latched operands before and after the change. -/

/-- The block with the operands and the command word of `c`: A, LEN_A, B, LEN_B and CMD. -/
def Block.withOperandsOf (b c : Block) : Block :=
  { b with a := c.a, lenA := c.lenA, b := c.b, lenB := c.lenB, cmd := c.cmd }

/-- The state whose block has the operands and the command word of `c`. -/
def State.withOperandsOf (s : State) (c : Block) : State := s.withBlk (s.blk.withOperandsOf c)

section live
variable {s t : State} (c : Block)

@[simp] theorem State.withOperandsOf_pending :
    (s.withOperandsOf c).blk.pending = s.blk.pending := rfl

theorem State.withOperandsOf_completeOk (r : Results) :
    (s.withOperandsOf c).withBlk ((s.withOperandsOf c).blk.completeOk r) =
      (s.withBlk (s.blk.completeOk r)).withOperandsOf c := rfl

theorem State.withOperandsOf_completeErr (k : ErrorKind) :
    (s.withOperandsOf c).withBlk ((s.withOperandsOf c).blk.completeErr k) =
      (s.withBlk (s.blk.completeErr k)).withOperandsOf c := rfl

/-- A completion passes the live registers through, whatever they hold (40_command.md R113). -/
theorem State.complete_withOperandsOf {e : Except ErrorKind Results} (h : s.complete e = .next t) :
    (s.withOperandsOf c).complete e = .next (t.withOperandsOf c) := by
  rcases State.complete_cases h with ⟨r, rfl, rfl⟩ | ⟨k, rfl, hk, rfl⟩
  case inl => rw [State.complete_ok, State.withOperandsOf_completeOk]
  case inr => rw [State.complete_error _ hk, State.withOperandsOf_completeErr]

/-- Every command reads its operands from PENDING alone (40_command.md R111). -/
theorem exec_withOperandsOf {i : Instr} (h : exec i s = .next t) :
    exec i (s.withOperandsOf c) = .next (t.withOperandsOf c) := by
  rw [exec_eq_runCommand] at h ⊢
  rcases hp : s.blk.pending with _ | p
  case none =>
    rw [State.runCommand_none hp] at h
    obtain rfl := Host.Outcome.next.inj h
    exact State.runCommand_none ((State.withOperandsOf_pending c).trans hp) _
  case some =>
    rw [State.runCommand_some hp] at h
    rw [State.runCommand_some ((State.withOperandsOf_pending c).trans hp)]
    exact State.complete_withOperandsOf c h

end live

/-- Settles O11: acceptance is its own list of fields, and a command run with other live registers is
`exec_withOperandsOf`. -/
theorem acceptanceLatchesOperands : Obligations.AcceptanceLatchesOperands := by
  refine ⟨fun b w => rfl, fun i s t a b lenA lenB w h => ?_⟩
  exact exec_withOperandsOf { s.blk with a := a, lenA := lenA, b := b, lenB := lenB, cmd := w } h

end Sys2Proof.Machine
end

section
/-! PROOFS. What a command's row of the opcode table and its operand checks come to, for any command, and
CMP, the command of the address family (spec/30_encoding.md R92, spec/40_command.md R113 to R119,
spec/41_address.md R130). -/

namespace Sys2Proof.Machine

/-! ### One row of the opcode table -/

/-- The commands `i n` have the words of the operation code `opc` when that is the code of each and `n` is
its PLEN (30_encoding.md R90, R92). -/
theorem hasOpcode_of_fields {opc : Nat} {i : Nat → Instr} (hopc : ∀ n, (opcode (i n)).toNat = opc)
    (hplen : ∀ n, (i n).plen = n) : HasOpcode opc i := by
  intro n hn
  have hlt : opc < 256 := hopc n ▸ (opcode (i n)).isLt
  have hword : (BitVec.ofNat 32 (256 * n + opc)).toNat = 256 * n + opc :=
    (BitVec.toNat_ofNat _ _).trans (Nat.mod_eq_of_lt (by omega))
  apply decode_of_fields
  case hrsvd => rw [hword]; omega
  case hopc => rw [hword, hopc]; omega
  case hplen => rw [hword, hplen]; omega

/-! ### A command from its effect on the latched operands -/

section effect
variable {i : Instr} {s : State} {p : Pending} (hp : s.blk.pending = some p)
include hp

/-- A success writes the fields of its results and nothing else but STATUS (40_command.md R113, R119). -/
theorem exec_of_effect_ok {r : Results} (h : Instr.effect i p = .ok r) :
    exec i s = .next (s.afterOk (·.applyResults r)) := by
  rw [exec_eq_runCommand, State.runCommand_some hp, h, State.complete_ok]
  rfl

/-- A reported error writes STATUS alone (60_exceptions.md R221, R224). -/
theorem exec_of_effect_error {k : ErrorKind} (h : Instr.effect i p = .error k)
    (hk : k ≠ .addressConversionError) : exec i s = .next (s.afterError k.code) := by
  rw [exec_eq_runCommand, State.runCommand_some hp, h, State.complete_error s hk,
    State.withBlk_completeErr]

end effect

/-- A command that begins with the checks of both operands fails as they fail, whatever follows them
(40_command.md R114, R115, R117). -/
theorem rejectsBadPair_of_twoOperands {i : Instr} {rest : Pending → Nat → Except ErrorKind Results}
    (heffect : ∀ p, Instr.effect i p = twoOperands p >>= rest p) : RejectsBadPair i := by
  intro s p hp
  have hfail {k : ErrorKind} (hcheck : twoOperands p = .error k) : Instr.effect i p = .error k := by
    rw [heffect, hcheck, except_error_bind]
  refine ⟨fun ha => ?badA, fun ha hb => ?badB, fun ha hb hlen => ?families⟩
  case badA => exact exec_of_effect_error hp (hfail (twoOperands_errorA ha)) nofun
  case badB => exact exec_of_effect_error hp (hfail (twoOperands_errorB ha hb)) nofun
  case families => exact exec_of_effect_error hp (hfail (twoOperands_family ha hb hlen)) nofun

/-! ### CMP -/

/-- CMP writes no address, so its result check passes (41_address.md R130, 40_command.md R121). -/
theorem cmpEffect_ok {p : Pending} (h : ValidPair p) :
    cmpEffect p = .ok { cmp := some (compareFlags p.a.toNat p.b.toNat) } := by
  rw [cmpEffect, twoOperands_ok h, except_ok_bind, checked_ok rfl]

/-- Settles O13: CMP begins with the checks of both operands, and on a valid pair its only result is the
three flags. -/
theorem cmpCompares : Obligations.CmpCompares := by
  refine ⟨hasOpcode_of_fields (fun _ => rfl) fun _ => rfl, fun plen => ?_⟩
  refine ⟨?rejects, fun s p hp hpair => ?flags⟩
  case rejects => exact rejectsBadPair_of_twoOperands fun _ => rfl
  case flags => exact exec_of_effect_ok (i := .cmp plen) hp (cmpEffect_ok hpair)

end Sys2Proof.Machine
end

section
/-! PROOFS. The commands of one operand and the result check of one address, for any command, and the
three commands of the mask family (spec/40_command.md R115, R121; spec/42_mask.md R140 to R148). -/

namespace Sys2Proof.Machine

/-! ### The operand check and the result check -/

/-- A command that begins with the check of A alone fails as it fails, whatever follows it
(40_command.md R114, R115). -/
theorem rejectsBadAddress_of_oneOperand {i : Instr}
    {rest : Pending → Nat → Except ErrorKind Results}
    (heffect : ∀ p, Instr.effect i p = oneOperand p >>= rest p) : RejectsBadAddress i := by
  intro s p hp ha
  have hfail : Instr.effect i p = .error .invalidAddress := by
    rw [heffect, oneOperand_error ha, except_error_bind]
  exact exec_of_effect_error hp hfail nofun

/-- The result check, address by address (40_command.md R121). -/
theorem Results.fits_iff (r : Results) (W : Nat) :
    r.fits W = true ↔ (∀ v ∈ r.r0, v < 2 ^ W) ∧ (∀ v ∈ r.r1, v < 2 ^ W) ∧
      ∀ l ∈ r.out, ∀ c ∈ l, c.addr < 2 ^ W := by
  simp [Results.fits, Option.all_eq_true, and_assoc]

/-- The results of the commands that write one address, into R0, with a length. -/
theorem checked_oneAddress {W v : Nat} (hv : v < 2 ^ W) (n : Nat) (len : Len) :
    checked W { r0 := some v, rNum := some n, rLen := some len } =
      .ok { r0 := some v, rNum := some n, rLen := some len } := by
  apply checked_ok
  rw [Results.fits_iff]
  exact ⟨fun _ h => Option.some.inj h ▸ hv, nofun, nofun⟩

/-- An address that is an operand's value goes into R0 as it is (40_command.md R119). -/
theorem Block.applyResults_value (b : Block) (v : Value) (n : Nat) (len : Len) :
    b.applyResults { r0 := some v.toNat, rNum := some n, rLen := some len } =
      { b with r0 := v, rNum := BitVec.ofNat 8 n, rLen := len } := by
  have hv : BitVec.ofNat 128 v.toNat = v := by simp
  rw [Block.applyResults, Option.map_some, Option.getD_some, hv]
  rfl

/-! ### MASK2PLEN -/

section mask2plen
variable {p : Pending} (ha : ValidAddr p.a p.lenA)
include ha

/-- MASK2PLEN writes no address, so its result check passes (42_mask.md R140). -/
theorem mask2plenEffect_of_mask {n : Nat} (hn : n ≤ 8 * p.lenA.toNat)
    (hmask : p.a.toNat = 2 ^ (8 * p.lenA.toNat) - 2 ^ (8 * p.lenA.toNat - n)) :
    mask2plenEffect p = .ok { rNum := some n, rLen := some p.lenA } := by
  rw [mask2plenEffect, oneOperand_ok ha, except_ok_bind, maskLength_ok hn hmask, except_ok_bind,
    checked_ok rfl]

theorem mask2plenEffect_of_not_mask (hmask : ∀ n ≤ 8 * p.lenA.toNat,
    p.a.toNat ≠ 2 ^ (8 * p.lenA.toNat) - 2 ^ (8 * p.lenA.toNat - n)) :
    mask2plenEffect p = .error .nonCanonicalMask := by
  rw [mask2plenEffect, oneOperand_ok ha, except_ok_bind, maskLength_error hmask,
    except_error_bind]

end mask2plen

/-- Settles O14: after the check of A the length of A as a mask decides. -/
theorem mask2plenMeasuresMask : Obligations.Mask2plenMeasuresMask := by
  refine ⟨hasOpcode_of_fields (fun _ => rfl) fun _ => rfl, fun plen => ?_⟩
  refine ⟨?rejects, fun s p hp ha => ⟨fun n hn hmask => ?mask, fun hmask => ?notMask⟩⟩
  case rejects => exact rejectsBadAddress_of_oneOperand fun _ => rfl
  case mask =>
    exact exec_of_effect_ok (i := .mask2plen plen) hp (mask2plenEffect_of_mask ha hn hmask)
  case notMask =>
    exact exec_of_effect_error (i := .mask2plen plen) hp (mask2plenEffect_of_not_mask ha hmask) nofun

/-! ### PLEN2MASK -/

section plen2mask
variable {p : Pending} {plen : Nat}

/-- A's value is not checked, because it is not read (42_mask.md R143). -/
theorem plen2maskEffect_badLength (hlen : ¬ (p.lenA = 4#5 ∨ p.lenA = 16#5)) :
    plen2maskEffect plen p = .error .invalidAddress := by
  rw [plen2maskEffect, lengthOperand_error hlen, except_error_bind]

theorem plen2maskEffect_longPlen (hlen : p.lenA = 4#5 ∨ p.lenA = 16#5)
    (hplen : 8 * p.lenA.toNat < plen) :
    plen2maskEffect plen p = .error .invalidPrefixLength := by
  rw [plen2maskEffect, lengthOperand_ok hlen, except_ok_bind, checkPlen_error hplen,
    except_error_bind]

/-- Every mask is below `2^W`, so the result check passes (42_mask.md R144). -/
theorem plen2maskEffect_ok (hlen : p.lenA = 4#5 ∨ p.lenA = 16#5)
    (hplen : plen ≤ 8 * p.lenA.toNat) :
    plen2maskEffect plen p =
      .ok { r0 := some (mask (8 * p.lenA.toNat) plen), rNum := some plen, rLen := some p.lenA } := by
  rw [plen2maskEffect, lengthOperand_ok hlen, except_ok_bind, checkPlen_ok hplen, except_ok_bind,
    checked_oneAddress mask_lt]

end plen2mask

/-- Settles O15: the check of LEN_A, the check of PLEN, then the mask. -/
theorem plen2maskBuildsMask : Obligations.Plen2maskBuildsMask := by
  refine ⟨hasOpcode_of_fields (fun _ => rfl) fun _ => rfl, fun plen s p hp => ?_⟩
  refine ⟨fun hlen => ?badLength, fun hlen hplen => ?longPlen, fun hlen hplen => ?built⟩
  case badLength =>
    exact exec_of_effect_error (i := .plen2mask plen) hp (plen2maskEffect_badLength hlen) nofun
  case longPlen =>
    exact exec_of_effect_error (i := .plen2mask plen) hp (plen2maskEffect_longPlen hlen hplen) nofun
  case built =>
    rw [← mask_eq]
    exact exec_of_effect_ok (i := .plen2mask plen) hp (plen2maskEffect_ok hlen hplen)

/-! ### ADDRMASK2PREFIX -/

section addrmask2prefix
variable {p : Pending} (hpair : ValidPair p)
include hpair

/-- R0 is A as it is, and A is below `2^W` by its own check (42_mask.md R147, R148). -/
theorem addrmask2prefixEffect_of_mask {n : Nat} (hn : n ≤ 8 * p.lenA.toNat)
    (hmask : p.b.toNat = 2 ^ (8 * p.lenA.toNat) - 2 ^ (8 * p.lenA.toNat - n)) :
    addrmask2prefixEffect p =
      .ok { r0 := some p.a.toNat, rNum := some n, rLen := some p.lenA } := by
  have ⟨⟨_, ha⟩, _⟩ := hpair
  rw [addrmask2prefixEffect, twoOperands_ok hpair, except_ok_bind, maskLength_ok hn hmask,
    except_ok_bind, checked_oneAddress ha]

theorem addrmask2prefixEffect_of_not_mask (hmask : ∀ n ≤ 8 * p.lenA.toNat,
    p.b.toNat ≠ 2 ^ (8 * p.lenA.toNat) - 2 ^ (8 * p.lenA.toNat - n)) :
    addrmask2prefixEffect p = .error .nonCanonicalMask := by
  rw [addrmask2prefixEffect, twoOperands_ok hpair, except_ok_bind, maskLength_error hmask,
    except_error_bind]

end addrmask2prefix

/-- Settles O16: after the checks of both operands the length of B as a mask decides, and R0 is A. -/
theorem addrmask2prefixPairs : Obligations.Addrmask2prefixPairs := by
  refine ⟨hasOpcode_of_fields (fun _ => rfl) fun _ => rfl, fun plen => ?_⟩
  refine ⟨?rejects, fun s p hp hpair => ⟨fun n hn hmask => ?mask, fun hmask => ?notMask⟩⟩
  case rejects => exact rejectsBadPair_of_twoOperands fun _ => rfl
  case mask =>
    rw [exec_of_effect_ok (i := .addrmask2prefix plen) hp
      (addrmask2prefixEffect_of_mask hpair hn hmask)]
    simp only [Block.applyResults_value]
  case notMask =>
    exact exec_of_effect_error (i := .addrmask2prefix plen) hp
      (addrmask2prefixEffect_of_not_mask hpair hmask) nofun

end Sys2Proof.Machine
end

section
/-! PROOFS. What the commands on a prefix `A/p` share, and the three commands of the expander family
(spec/30_encoding.md R91; spec/40_command.md R114 to R116, R121; spec/43_expand.md R160 to R167). -/

namespace Sys2Proof.Machine

/-! ### The network address and the host bits -/

/-- Canonicalising only clears bits (43_expand.md R167). -/
theorem canon_lt {a W : Nat} (ha : a < 2 ^ W) (plen : Nat) : canon a W plen < 2 ^ W :=
  Nat.and_le_left.trans_lt ha

/-- The host bits lie within the address (00_scope.md R12). -/
theorem hostMask_lt (W plen : Nat) : hostMask W plen < 2 ^ W := by
  have hsucc : hostMask W plen + 1 = 2 ^ (W - plen) := ones_succ _
  have hle : 2 ^ (W - plen) ≤ 2 ^ W := Nat.pow_le_pow_right Nat.two_pos (Nat.sub_le W plen)
  omega

/-- Setting the host bits of a network address gives the last address of its block
(43_expand.md R160, R161). -/
theorem canon_or_hostMask {a W plen : Nat} (ha : a < 2 ^ W) (hplen : plen ≤ W) :
    canon a W plen ||| hostMask W plen =
      a / 2 ^ (W - plen) * 2 ^ (W - plen) + 2 ^ (W - plen) - 1 := by
  rw [canon_eq ha hplen, hostMask, or_hostMask, ← Nat.add_sub_assoc Nat.one_le_two_pow]

/-! ### The operand checks of a prefix -/

section prefixOperand
variable {i : Instr} {plen : Nat} {p : Pending} {rest : Nat → Except ErrorKind Results}
  (heffect : Instr.effect i p = oneOperand p >>= fun W => checkPlen plen W >>= fun _ => rest W)
  (ha : ValidAddr p.a p.lenA)
include heffect ha

/-- A command that checks A and then PLEN goes on with W where both are valid
(40_command.md R114, R116). -/
theorem effect_of_prefixOperand (hplen : plen ≤ 8 * p.lenA.toNat) :
    Instr.effect i p = rest (8 * p.lenA.toNat) := by
  rw [heffect, oneOperand_ok ha, except_ok_bind, checkPlen_ok hplen, except_ok_bind]

/-- A command that checks A and then PLEN fails with InvalidPrefixLength where PLEN passes W, whatever
follows the checks (40_command.md R114, R116). -/
theorem exec_of_longPlen {s : State} (hp : s.blk.pending = some p)
    (hplen : 8 * p.lenA.toNat < plen) : exec i s = .next (s.afterError 7) := by
  have hfail : Instr.effect i p = .error .invalidPrefixLength := by
    rw [heffect, oneOperand_ok ha, except_ok_bind, checkPlen_error hplen, except_error_bind]
  exact exec_of_effect_error hp hfail nofun

end prefixOperand

/-! ### The results of the three commands -/

section results
variable {plen : Nat} {p : Pending} (ha : ValidAddr p.a p.lenA) (hplen : plen ≤ 8 * p.lenA.toNat)
include ha hplen

/-- Both ends of the block are below `2^W`, so the result check passes (43_expand.md R161). -/
theorem expandEffect_ok : Instr.effect (.expand plen) p =
    .ok { r0 := some (canon p.a.toNat (8 * p.lenA.toNat) plen)
          r1 := some (canon p.a.toNat (8 * p.lenA.toNat) plen ||| hostMask (8 * p.lenA.toNat) plen)
          rNum := some plen, rLen := some p.lenA } := by
  have hfirst := canon_lt ha.2 plen
  have hlast := Nat.or_lt_two_pow hfirst (hostMask_lt _ plen)
  rw [effect_of_prefixOperand rfl ha hplen]
  apply checked_ok
  rw [Results.fits_iff]
  exact ⟨fun _ h => Option.some.inj h ▸ hfirst, fun _ h => Option.some.inj h ▸ hlast, nofun⟩

/-- Every mask is below `2^W`, so the result check passes (43_expand.md R164). -/
theorem netmaskEffect_ok : Instr.effect (.netmask plen) p =
    .ok { r0 := some (mask (8 * p.lenA.toNat) plen), rNum := some plen, rLen := some p.lenA } := by
  rw [effect_of_prefixOperand rfl ha hplen, checked_oneAddress mask_lt]

/-- The network address is not above A, so the result check passes (43_expand.md R167). -/
theorem canonEffect_ok : Instr.effect (.canon plen) p =
    .ok { r0 := some (canon p.a.toNat (8 * p.lenA.toNat) plen), rNum := some plen
          rLen := some p.lenA } := by
  rw [effect_of_prefixOperand rfl ha hplen, checked_oneAddress (canon_lt ha.2 plen)]

end results

/-! ### EXPAND, NETMASK, CANON -/

/-- Settles O17: the checks of A and of PLEN, then the network address of A, and that address with its
host bits set. -/
theorem expandGivesBlock : Obligations.ExpandGivesBlock := by
  refine ⟨hasOpcode_of_fields (fun _ => rfl) fun _ => rfl, fun plen => ?_⟩
  refine ⟨?rejects, fun s p hp ha => ⟨fun hplen => ?longPlen, fun hplen => ?block⟩⟩
  case rejects => exact rejectsBadAddress_of_oneOperand fun _ => rfl
  case longPlen => exact exec_of_longPlen rfl ha hp hplen
  case block =>
    dsimp only
    rw [← canon_or_hostMask ha.2 hplen, ← canon_eq ha.2 hplen]
    exact exec_of_effect_ok hp (expandEffect_ok ha hplen)

/-- Settles O18: the checks of A and of PLEN, then the mask. -/
theorem netmaskGivesMask : Obligations.NetmaskGivesMask := by
  refine ⟨hasOpcode_of_fields (fun _ => rfl) fun _ => rfl, fun plen => ?_⟩
  refine ⟨?rejects, fun s p hp ha => ⟨fun hplen => ?longPlen, fun hplen => ?built⟩⟩
  case rejects => exact rejectsBadAddress_of_oneOperand fun _ => rfl
  case longPlen => exact exec_of_longPlen rfl ha hp hplen
  case built =>
    rw [← mask_eq]
    exact exec_of_effect_ok hp (netmaskEffect_ok ha hplen)

/-- Settles O19: the checks of A and of PLEN, then the network address of A. -/
theorem canonClearsHostBits : Obligations.CanonClearsHostBits := by
  refine ⟨hasOpcode_of_fields (fun _ => rfl) fun _ => rfl, fun plen => ?_⟩
  refine ⟨?rejects, fun s p hp ha => ⟨fun hplen => ?longPlen, fun hplen => ?cleared⟩⟩
  case rejects => exact rejectsBadAddress_of_oneOperand fun _ => rfl
  case longPlen => exact exec_of_longPlen rfl ha hp hplen
  case cleared =>
    rw [← canon_eq ha.2 hplen]
    exact exec_of_effect_ok hp (canonEffect_ok ha hplen)

end Sys2Proof.Machine
end

section
/-! PROOFS. The commands of the bit-alignment comparator: what a command on a range shares, the two
measures of alignment, and the two steps (spec/40_command.md R114, R121; spec/44_decompose.md R195 to
R206). -/

namespace Sys2Proof.Machine

/-! ### ALIGN_END, ALIGN_START -/

/-- ALIGN_END writes no address, so its result check passes (44_decompose.md R196). -/
theorem alignEndEffect_ok {p : Pending} (ha : ValidAddr p.a p.lenA) :
    alignEndEffect p =
      .ok { rNum := some (trailingOnes p.a.toNat (8 * p.lenA.toNat)), rLen := some p.lenA } := by
  rw [alignEndEffect, oneOperand_ok ha, except_ok_bind, checked_ok rfl]

/-- ALIGN_START writes no address, so its result check passes (44_decompose.md R198). -/
theorem alignStartEffect_ok {p : Pending} (ha : ValidAddr p.a p.lenA) :
    alignStartEffect p =
      .ok { rNum := some (trailingZeros p.a.toNat (8 * p.lenA.toNat)), rLen := some p.lenA } := by
  rw [alignStartEffect, oneOperand_ok ha, except_ok_bind, checked_ok rfl]

/-- Settles O20: after the check of A, RNUM is the alignment of A + 1 up to W. -/
theorem alignEndMeasures : Obligations.AlignEndMeasures := by
  refine ⟨hasOpcode_of_fields (fun _ => rfl) fun _ => rfl, fun plen => ?_⟩
  refine ⟨?rejects, fun s p hp ha => ?measured⟩
  case rejects => exact rejectsBadAddress_of_oneOperand fun _ => rfl
  case measured =>
    obtain ⟨hle, hdvd⟩ := trailingOnes_spec p.a.toNat (8 * p.lenA.toNat)
    exact ⟨_, hle, hdvd, exec_of_effect_ok (i := .alignEnd plen) hp (alignEndEffect_ok ha)⟩

/-- Settles O21: after the check of A, RNUM is the alignment of A up to W. -/
theorem alignStartMeasures : Obligations.AlignStartMeasures := by
  refine ⟨hasOpcode_of_fields (fun _ => rfl) fun _ => rfl, fun plen => ?_⟩
  refine ⟨?rejects, fun s p hp ha => ?measured⟩
  case rejects => exact rejectsBadAddress_of_oneOperand fun _ => rfl
  case measured =>
    obtain ⟨hle, hdvd⟩ := trailingZeros_spec ha.2
    exact ⟨_, hle, hdvd, exec_of_effect_ok (i := .alignStart plen) hp (alignStartEffect_ok ha)⟩

/-! ### The operand checks of a range -/

/-- Both ends of a range are below `2^W`, W being the width of A (40_command.md R115, R117, R118). -/
theorem toNat_lt_of_validPair {p : Pending} (hpair : ValidPair p) :
    p.a.toNat < 2 ^ (8 * p.lenA.toNat) ∧ p.b.toNat < 2 ^ (8 * p.lenA.toNat) := by
  obtain ⟨⟨-, ha⟩, ⟨-, hb⟩, hlen⟩ := hpair
  exact ⟨ha, hlen ▸ hb⟩

section rangeOperands
variable {i : Instr} {p : Pending} {rest : Nat → Except ErrorKind Results}
  (heffect : Instr.effect i p =
    twoOperands p >>= fun W => checkRange p.a.toNat p.b.toNat >>= fun _ => rest W)
  (hpair : ValidPair p)
include heffect hpair

/-- A command that checks both operands and then their order goes on with W where `[A, B]` is a range
(40_command.md R114). -/
theorem effect_of_range (hab : p.a.toNat ≤ p.b.toNat) :
    Instr.effect i p = rest (8 * p.lenA.toNat) := by
  rw [heffect, twoOperands_ok hpair, except_ok_bind, checkRange_ok hab, except_ok_bind]

/-- A command that checks both operands and then their order fails with InvalidRange where A is above
B, whatever follows the checks (40_command.md R114). -/
theorem exec_of_reversedRange {s : State} (hp : s.blk.pending = some p)
    (hba : p.b.toNat < p.a.toNat) : exec i s = .next (s.afterError 3) := by
  have hfail : Instr.effect i p = .error .invalidRange := by
    rw [heffect, twoOperands_ok hpair, except_ok_bind, checkRange_error hba, except_error_bind]
  exact exec_of_effect_error hp hfail nofun

end rangeOperands

/-! ### The results of a step: a block's two ends -/

/-- The results of the commands that write both ends of a block, with a length. -/
theorem checked_twoAddresses {W u v : Nat} (hu : u < 2 ^ W) (hv : v < 2 ^ W) (n : Nat) (len : Len) :
    checked W { r0 := some u, r1 := some v, rNum := some n, rLen := some len } =
      .ok { r0 := some u, r1 := some v, rNum := some n, rLen := some len } := by
  apply checked_ok
  rw [Results.fits_iff]
  exact ⟨fun _ h => Option.some.inj h ▸ hu, fun _ h => Option.some.inj h ▸ hv, nofun⟩

/-- The results of a step go into R0, R1, RNUM and RLEN, and nowhere else (40_command.md R119). -/
theorem Block.applyResults_twoAddresses (b : Block) (u v n : Nat) (len : Len) :
    b.applyResults { r0 := some u, r1 := some v, rNum := some n, rLen := some len } =
      { b with
        r0 := BitVec.ofNat 128 u, r1 := BitVec.ofNat 128 v, rNum := BitVec.ofNat 8 n, rLen := len } :=
  rfl

/-- The two conditions on a block, that it is aligned at `x` and that it lies in `[s, e]`, pass to every
smaller size, so the largest size that meets them stands for all of them (00_scope.md R16). -/
theorem alignedBlock_iff_le {W s e x n : Nat} (hdvd : 2 ^ n ∣ x) (hfit : s + 2 ^ n ≤ e + 1)
    (hmax : ∀ j ≤ W, 2 ^ j ∣ x → s + 2 ^ j ≤ e + 1 → j ≤ n) :
    ∀ j ≤ W, (2 ^ j ∣ x ∧ s + 2 ^ j ≤ e + 1) ↔ j ≤ n := by
  refine fun j hj => ⟨fun ⟨hd, hf⟩ => hmax j hj hd hf, fun hjn => ⟨?_, ?_⟩⟩
  · exact (Nat.pow_dvd_pow 2 hjn).trans hdvd
  · have := Nat.pow_le_pow_right Nat.two_pos hjn
    omega

section step
variable {p : Pending} (hpair : ValidPair p) (hab : p.a.toNat ≤ p.b.toNat)
include hpair hab

/-- The block STEP_DOWN takes lies in `[A, B]`, so the result check passes (44_decompose.md R202). -/
theorem stepDownEffect_ok (plen : Nat) : Instr.effect (.stepDown plen) p =
    .ok { r0 := some (p.b.toNat + 1 - 2 ^ downBits (8 * p.lenA.toNat) p.a.toNat p.b.toNat)
          r1 := some p.b.toNat
          rNum := some (8 * p.lenA.toNat - downBits (8 * p.lenA.toNat) p.a.toNat p.b.toNat)
          rLen := some p.lenA } := by
  obtain ⟨-, hb⟩ := toNat_lt_of_validPair hpair
  obtain ⟨-, -, -, hclear, -⟩ := downBits_spec (W := 8 * p.lenA.toNat) hab
  have hpos := Nat.two_pow_pos (downBits (8 * p.lenA.toNat) p.a.toNat p.b.toNat)
  rw [effect_of_range rfl hpair hab]
  dsimp only
  rw [hclear, checked_twoAddresses (by omega) hb]

/-- The block STEP_UP takes lies in `[A, B]`, so the result check passes (44_decompose.md R206). -/
theorem stepUpEffect_ok (plen : Nat) : Instr.effect (.stepUp plen) p =
    .ok { r0 := some p.a.toNat
          r1 := some (p.a.toNat + 2 ^ upBits (8 * p.lenA.toNat) p.a.toNat p.b.toNat - 1)
          rNum := some (8 * p.lenA.toNat - upBits (8 * p.lenA.toNat) p.a.toNat p.b.toNat)
          rLen := some p.lenA } := by
  obtain ⟨ha, hb⟩ := toNat_lt_of_validPair hpair
  obtain ⟨-, -, -, hfit, -⟩ := upBits_spec ha hab
  rw [effect_of_range rfl hpair hab]
  dsimp only
  rw [ones, ← Nat.add_sub_assoc Nat.one_le_two_pow, checked_twoAddresses ha (by omega)]

end step

/-! ### STEP_DOWN, STEP_UP -/

/-- Settles O22: the checks of both operands and of their order, then the block of `downBits`. -/
theorem stepDownTakesBlock : Obligations.StepDownTakesBlock := by
  refine ⟨hasOpcode_of_fields (fun _ => rfl) fun _ => rfl, fun plen => ?_⟩
  refine ⟨?rejects, fun s p hp hpair => ⟨fun hba => ?reversed, fun hab => ?block⟩⟩
  case rejects => exact rejectsBadPair_of_twoOperands fun _ => rfl
  case reversed => exact exec_of_reversedRange rfl hpair hp hba
  case block =>
    obtain ⟨hle, hdvd, hfit, -, hmax⟩ := downBits_spec (W := 8 * p.lenA.toNat) hab
    refine ⟨_, hle, alignedBlock_iff_le hdvd hfit hmax, ?_⟩
    rw [exec_of_effect_ok hp (stepDownEffect_ok hpair hab plen)]
    simp only [Block.applyResults_twoAddresses, BitVec.ofNat_toNat, BitVec.setWidth_eq]

/-- Settles O23: the checks of both operands and of their order, then the block of `upBits`. -/
theorem stepUpTakesBlock : Obligations.StepUpTakesBlock := by
  refine ⟨hasOpcode_of_fields (fun _ => rfl) fun _ => rfl, fun plen => ?_⟩
  refine ⟨?rejects, fun s p hp hpair => ⟨fun hba => ?reversed, fun hab => ?block⟩⟩
  case rejects => exact rejectsBadPair_of_twoOperands fun _ => rfl
  case reversed => exact exec_of_reversedRange rfl hpair hp hba
  case block =>
    obtain ⟨-, hle, hdvd, hfit, hmax⟩ := upBits_spec (toNat_lt_of_validPair hpair).1 hab
    refine ⟨_, hle, alignedBlock_iff_le hdvd hfit hmax, ?_⟩
    rw [exec_of_effect_ok hp (stepUpEffect_ok hpair hab plen)]
    simp only [Block.applyResults_twoAddresses, BitVec.ofNat_toNat, BitVec.setWidth_eq]

end Sys2Proof.Machine
end

section
/-! PROOFS. The list of the DECOMPOSE loop: one turn of the loop, the bound on its length in the two
phases of R188, and that no list of prefixes that covers the same range is shorter
(spec/44_decompose.md R180, R181, R188, R189). -/

namespace Sys2Proof.Machine

section loop
variable {W e cur : Nat} (he : e < 2 ^ W) (hcur : cur ≤ e)
include he hcur

/-! ### One turn of the loop -/

/-- One turn writes the largest aligned block at `cur`, and either reaches `e` with it or goes on after
it (44_decompose.md R180). -/
theorem decomposeLoop_turn (fuel : Nat) :
    (cur + 2 ^ upBits W cur e = e + 1 ∧
      decomposeLoop W e (fuel + 1) cur = [⟨cur, W - upBits W cur e⟩]) ∨
    (cur + 2 ^ upBits W cur e ≤ e ∧
      decomposeLoop W e (fuel + 1) cur =
        ⟨cur, W - upBits W cur e⟩ :: decomposeLoop W e fuel (cur + 2 ^ upBits W cur e)) := by
  obtain ⟨-, -, -, hfit, -⟩ := upBits_spec (hcur.trans_lt he) hcur
  have hones := ones_succ (upBits W cur e)
  rw [decomposeLoop]
  split
  case isTrue hlast => exact .inl ⟨by omega, rfl⟩
  case isFalse hnext => exact .inr ⟨by omega, rfl⟩

/-! ### The falling phase -/

/-- While what remains is less than the alignment, the block is the largest power of two that fits
(44_decompose.md R188). -/
theorem lt_two_pow_upBits_succ (hfall : e + 1 - cur < 2 ^ trailingZeros cur W) :
    e + 1 - cur < 2 ^ (upBits W cur e + 1) := by
  have hlt : cur < 2 ^ W := hcur.trans_lt he
  obtain ⟨hzW, hdvd⟩ := trailingZeros_spec hlt
  obtain ⟨-, -, -, -, hmax⟩ := upBits_spec hlt hcur
  by_contra hfit
  rcases Nat.lt_or_ge (upBits W cur e) (trailingZeros cur W) with hz | hz
  case inl =>
    have hsucc := hmax (upBits W cur e + 1) (by omega) ((hdvd _ (by omega)).2 hz) (by omega)
    omega
  case inr =>
    have hpow := Nat.pow_le_pow_right Nat.two_pos (Nat.le_succ_of_le hz)
    omega

/-- A block that is cut short by `e` begins the falling phase (44_decompose.md R188). -/
theorem falling_of_upBits_lt (hcut : upBits W cur e < trailingZeros cur W) :
    e + 1 - cur < 2 ^ trailingZeros cur W := by
  have hlt : cur < 2 ^ W := hcur.trans_lt he
  obtain ⟨hzW, hdvd⟩ := trailingZeros_spec hlt
  obtain ⟨-, -, -, -, hmax⟩ := upBits_spec hlt hcur
  by_contra hfit
  have hz := hmax _ hzW ((hdvd _ hzW).2 le_rfl) (by omega)
  omega

/-- The address after a block is aligned at least as the block is. -/
theorem upBits_le_trailingZeros_next (hnext : cur + 2 ^ upBits W cur e ≤ e) :
    upBits W cur e ≤ trailingZeros (cur + 2 ^ upBits W cur e) W := by
  obtain ⟨-, hW, hdvd, -, -⟩ := upBits_spec (hcur.trans_lt he) hcur
  obtain ⟨-, hiff⟩ := trailingZeros_spec (hnext.trans_lt he)
  exact (hiff _ hW).1 ((Nat.dvd_add_right hdvd).2 dvd_rfl)

/-! ### The rising phase -/

/-- The address after a block of the full alignment is aligned to the double of it
(44_decompose.md R188). -/
theorem trailingZeros_lt_next (hrise : upBits W cur e = trailingZeros cur W)
    (hnext : cur + 2 ^ upBits W cur e ≤ e) :
    trailingZeros cur W < trailingZeros (cur + 2 ^ upBits W cur e) W := by
  obtain ⟨-, hdvd⟩ := trailingZeros_spec (hcur.trans_lt he)
  rw [hrise] at hnext ⊢
  obtain ⟨-, hiff⟩ := trailingZeros_spec (hnext.trans_lt he)
  have hW : trailingZeros cur W < W := (Nat.pow_lt_pow_iff_right one_lt_two).1 (by omega)
  refine (hiff _ hW).1 (two_pow_succ_dvd_add ((hdvd _ hW.le).2 le_rfl) fun h => ?_)
  have hsucc := (hdvd _ hW).1 h
  omega

end loop

/-- Only the address 0 is aligned to the whole width. -/
theorem trailingZeros_lt {a W : Nat} (h0 : a ≠ 0) (ha : a < 2 ^ W) : trailingZeros a W < W := by
  obtain ⟨hW, hdvd⟩ := trailingZeros_spec ha
  have hle := Nat.le_of_dvd (Nat.pos_of_ne_zero h0) ((hdvd _ hW).2 le_rfl)
  exact (Nat.pow_lt_pow_iff_right one_lt_two).1 (hle.trans_lt ha)

/-! ### The bound on the length -/

variable {W e : Nat}

/-- In the falling phase the list is no longer than what remains has bits (44_decompose.md R188). -/
theorem decomposeLoop_length_falling (he : e < 2 ^ W) (fuel : Nat) : ∀ {cur m : Nat}, cur ≤ e →
    e + 1 - cur < 2 ^ trailingZeros cur W → e + 1 - cur < 2 ^ m →
    (decomposeLoop W e fuel cur).length ≤ m := by
  induction fuel with
  | zero => exact fun _ _ _ => Nat.zero_le _
  | succ fuel ih =>
    intro cur m hcur hfall hm
    have hblock := lt_two_pow_upBits_succ he hcur hfall
    obtain ⟨-, -, -, hfit, -⟩ := upBits_spec (hcur.trans_lt he) hcur
    have hbm : upBits W cur e < m := (Nat.pow_lt_pow_iff_right one_lt_two).1 (by omega)
    rcases decomposeLoop_turn he hcur fuel with ⟨-, hlist⟩ | ⟨hnext, hlist⟩ <;>
      rw [hlist, List.length_cons]
    case inl => rw [List.length_nil]; omega
    case inr =>
      have hz := Nat.pow_le_pow_right Nat.two_pos (upBits_le_trailingZeros_next he hcur hnext)
      rw [pow_succ] at hblock
      have hrest := ih hnext (by omega) (m := upBits W cur e) (by omega)
      omega

/-- From a nonzero address the list is at most two for each size the alignment has not passed: one in
the rising phase and one in the falling phase (44_decompose.md R188, R189). -/
theorem decomposeLoop_length_rising (hW : 2 ≤ W) (he : e < 2 ^ W) (fuel : Nat) : ∀ {cur : Nat},
    cur ≠ 0 → cur ≤ e →
    (decomposeLoop W e fuel cur).length + trailingZeros cur W + 2 ≤ 2 * W := by
  induction fuel with
  | zero =>
    intro cur h0 hcur
    have hz := trailingZeros_lt h0 (hcur.trans_lt he)
    rw [decomposeLoop, List.length_nil]
    omega
  | succ fuel ih =>
    intro cur h0 hcur
    have hz := trailingZeros_lt h0 (hcur.trans_lt he)
    obtain ⟨hle, -⟩ := upBits_spec (hcur.trans_lt he) hcur
    rcases hle.lt_or_eq with hcut | hfull
    case inl =>
      have hfall := falling_of_upBits_lt he hcur hcut
      have hlen := decomposeLoop_length_falling he (fuel + 1) hcur hfall hfall
      omega
    case inr =>
      rcases decomposeLoop_turn he hcur fuel with ⟨-, hlist⟩ | ⟨hnext, hlist⟩ <;>
        rw [hlist, List.length_cons]
      case inl => rw [List.length_nil]; omega
      case inr =>
        have hrise := trailingZeros_lt_next he hcur hfull hnext
        have hrest := ih (Nat.add_pos_right _ (Nat.two_pow_pos _)).ne' hnext
        omega

/-- No range needs more than `2W - 2` prefixes (44_decompose.md R189). -/
theorem decompose_length_le {s : Nat} (hW : 2 ≤ W) (hse : s ≤ e) (he : e < 2 ^ W) :
    (decompose W s e).length ≤ 2 * W - 2 := by
  rw [decompose]
  rcases Nat.eq_zero_or_pos s with rfl | hs
  case inr =>
    have hlen := decomposeLoop_length_rising hW he (2 * W + 1) hs.ne' hse
    omega
  case inl =>
    have hz : trailingZeros 0 W = W := if_pos rfl
    obtain ⟨hle, -⟩ := upBits_spec (hse.trans_lt he) hse
    rcases hle.lt_or_eq with hcut | hfull
    case inl =>
      have hfall := falling_of_upBits_lt he hse hcut
      have hlen := decomposeLoop_length_falling he (2 * W + 1) hse hfall hfall
      omega
    case inr =>
      rw [hz] at hfull
      rcases decomposeLoop_turn he hse (2 * W) with ⟨-, hlist⟩ | ⟨hnext, -⟩
      · rw [hlist, List.length_singleton]; omega
      · rw [hfull] at hnext; omega

/-! ### Minimality -/

/-- The first address of the block of a prefix (43_expand.md R160). -/
def Cidr.first (W : Nat) (c : Cidr) : Nat := c.addr / 2 ^ (W - c.bits) * 2 ^ (W - c.bits)

/-- The addresses of the block of a prefix (43_expand.md R161). -/
theorem Cidr.covers_iff (W : Nat) (c : Cidr) (x : Nat) :
    c.Covers W x ↔ c.first W ≤ x ∧ x < c.first W + 2 ^ (W - c.bits) := by
  rw [Cidr.Covers, Cidr.first, Nat.div_eq_iff (Nat.two_pow_pos _)]
  have hpos := Nat.two_pow_pos (W - c.bits)
  omega

/-- An aligned block of `[cur, e]` that begins inside the block the loop chooses at `cur` ends inside it:
of two aligned blocks that meet one holds the other, and the loop's is the largest at `cur`
(44_decompose.md R182). -/
theorem alignedBlock_le_upBits {cur n q : Nat} (he : e < 2 ^ W) (hcur : cur ≤ e) (hn : n ≤ W)
    (hfirst : cur ≤ q * 2 ^ n) (hlast : q * 2 ^ n + 2 ^ n ≤ e + 1)
    (hmeet : q * 2 ^ n < cur + 2 ^ upBits W cur e) :
    q * 2 ^ n + 2 ^ n ≤ cur + 2 ^ upBits W cur e := by
  obtain ⟨-, -, hdvd, -, hmax⟩ := upBits_spec (hcur.trans_lt he) hcur
  rcases Nat.lt_or_ge (upBits W cur e) n with hlarge | hsmall
  case inl =>
    have hpow : 2 ^ upBits W cur e ∣ q * 2 ^ n := (Nat.pow_dvd_pow 2 hlarge.le).mul_left q
    have hstart : q * 2 ^ n = cur := by
      have hrest := Nat.dvd_sub hpow hdvd
      have hzero := Nat.eq_zero_of_dvd_of_lt hrest (by omega)
      omega
    have hle := hmax n hn (hstart ▸ Nat.dvd_mul_left _ q) (hstart ▸ hlast)
    omega
  case inr =>
    have hpow : 2 ^ n ∣ 2 ^ upBits W cur e := Nat.pow_dvd_pow 2 hsmall
    obtain ⟨r, hr⟩ : 2 ^ n ∣ cur + 2 ^ upBits W cur e := (hpow.trans hdvd).add hpow
    rw [hr, mul_comm (2 ^ n) r] at hmeet ⊢
    have hqr : q + 1 ≤ r := Nat.lt_of_mul_lt_mul_right hmeet
    rw [← Nat.succ_mul]
    exact Nat.mul_le_mul_right _ hqr

/-- The blocks of the prefixes `l` are together exactly the range `[s, e]`; they may overlap
(44_decompose.md R181). -/
def IsCover (W : Nat) (l : List Cidr) (s e : Nat) : Prop :=
  ∀ x, (∃ c ∈ l, c.Covers W x) ↔ s ≤ x ∧ x ≤ e

/-- The prefixes of `l` whose blocks do not begin before `n`. -/
def startingFrom (W n : Nat) (l : List Cidr) : List Cidr := l.filter fun c => decide (n ≤ c.first W)

theorem mem_startingFrom {n : Nat} {l : List Cidr} {c : Cidr} :
    c ∈ startingFrom W n l ↔ c ∈ l ∧ n ≤ c.first W := by
  rw [startingFrom, List.mem_filter, decide_eq_true_iff]

section cover
variable {l : List Cidr} {cur : Nat} (hcover : IsCover W l cur e)
include hcover

/-- Every block of a cover lies in the range: its first and its last address do. -/
theorem IsCover.within {c : Cidr} (hc : c ∈ l) :
    cur ≤ c.first W ∧ c.first W + 2 ^ (W - c.bits) ≤ e + 1 := by
  have hpos := Nat.two_pow_pos (W - c.bits)
  obtain ⟨hfirst, -⟩ := (hcover _).1 ⟨c, hc, (c.covers_iff W _).2 ⟨le_rfl, by omega⟩⟩
  obtain ⟨-, hlast⟩ := (hcover (c.first W + 2 ^ (W - c.bits) - 1)).1
    ⟨c, hc, (c.covers_iff W _).2 ⟨by omega, by omega⟩⟩
  omega

/-- The block over `cur` begins at `cur`, so the prefixes that begin later are fewer. -/
theorem IsCover.length_startingFrom_lt (hcur : cur ≤ e) {n : Nat} (hn : cur < n) :
    (startingFrom W n l).length < l.length := by
  obtain ⟨c, hc, hcov⟩ := (hcover cur).2 ⟨le_rfl, hcur⟩
  obtain ⟨hfirst, -⟩ := (c.covers_iff W cur).1 hcov
  exact List.length_filter_lt_length_iff_exists.2 ⟨c, hc, by rw [decide_eq_true_iff]; omega⟩

/-- A block that begins before the loop's next address ends before it, so the prefixes that begin later
cover what is left. -/
theorem IsCover.startingFrom_next (he : e < 2 ^ W) (hcur : cur ≤ e) :
    IsCover W (startingFrom W (cur + 2 ^ upBits W cur e) l) (cur + 2 ^ upBits W cur e) e := by
  intro x
  constructor
  case mp =>
    rintro ⟨c, hmem, hcov⟩
    obtain ⟨hc, hfirst⟩ := mem_startingFrom.1 hmem
    obtain ⟨hx, -⟩ := (c.covers_iff W x).1 hcov
    exact ⟨hfirst.trans hx, ((hcover x).1 ⟨c, hc, hcov⟩).2⟩
  case mpr =>
    rintro ⟨hnext, hxe⟩
    obtain ⟨c, hc, hcov⟩ := (hcover x).2 ⟨(Nat.le_add_right _ _).trans hnext, hxe⟩
    obtain ⟨hfirst, hlast⟩ := hcover.within hc
    obtain ⟨-, hx⟩ := (c.covers_iff W x).1 hcov
    refine ⟨c, mem_startingFrom.2 ⟨hc, ?_⟩, hcov⟩
    by_contra hbefore
    have hend := alignedBlock_le_upBits he hcur (Nat.sub_le W c.bits) hfirst hlast
      (Nat.lt_of_not_le hbefore)
    exact absurd (hx.trans_le hend) (Nat.not_lt.2 hnext)

end cover

/-- The list of the loop is no longer than any cover of `[cur, e]`: each turn drops from the cover at
least the block over `cur` (44_decompose.md R181, R182). -/
theorem IsCover.decomposeLoop_length_le (he : e < 2 ^ W) (fuel : Nat) :
    ∀ {cur : Nat} {l : List Cidr}, cur ≤ e → IsCover W l cur e →
      (decomposeLoop W e fuel cur).length ≤ l.length := by
  induction fuel with
  | zero => exact fun _ _ => Nat.zero_le _
  | succ fuel ih =>
    intro cur l hcur hcover
    have hpos := Nat.two_pow_pos (upBits W cur e)
    have hfewer := hcover.length_startingFrom_lt hcur (n := cur + 2 ^ upBits W cur e) (by omega)
    rcases decomposeLoop_turn he hcur fuel with ⟨-, hlist⟩ | ⟨hnext, hlist⟩ <;>
      rw [hlist, List.length_cons]
    case inl => rw [List.length_nil]; omega
    case inr =>
      have hrest := ih hnext (hcover.startingFrom_next he hcur)
      omega

end Sys2Proof.Machine
end

section
/-! PROOFS. The DECOMPOSE command: the list it writes fits the buffer and its fields, what a host reads
back, and what its outcome depends on (spec/44_decompose.md R180 to R190). -/

namespace Sys2Proof.Machine

/-! ### The prefixes of a tiling -/

theorem Tiles.bits_le {W : Nat} : ∀ {s t : Nat} {l : List Cidr}, Tiles W s l t →
    ∀ c ∈ l, c.bits ≤ W
  | _, _, [], _ => nofun
  | _, _, _ :: _, ⟨_, hbits, _, hrest⟩ => List.forall_mem_cons.2 ⟨hbits, hrest.bits_le⟩

/-- The prefixes of a tiling are in strictly ascending order (44_decompose.md R187). -/
theorem Tiles.pairwise_addr_lt {W : Nat} : ∀ {s t : Nat} {l : List Cidr}, Tiles W s l t →
    l.Pairwise (fun c d => c.addr < d.addr)
  | _, _, [], _ => List.Pairwise.nil
  | _, _, c :: _, ⟨haddr, _, _, hrest⟩ => by
    refine List.pairwise_cons.2 ⟨fun d hd => ?_, hrest.pairwise_addr_lt⟩
    have hpos := Nat.two_pow_pos (W - c.bits)
    have hd_addr := (hrest.addr_lt.2 d hd).1
    omega

/-! ### The entries DECOMPOSE writes and keeps -/

section overlay
variable {l : List Cidr} {i : Fin Config.outDepth} (out : Vector OutEntry Config.outDepth)

theorem overlay_of_lt (hi : i.val < l.length) : (overlay l out)[i] = l[i.val].toEntry := by
  rw [overlay_get, List.getElem?_eq_getElem hi]

theorem overlay_of_le (hi : l.length ≤ i.val) : (overlay l out)[i] = out[i] := by
  rw [overlay_get, List.getElem?_eq_none hi]

end overlay

/-! ### The list of the command in flight -/

/-- The prefixes of the range of the latched operands. -/
def Pending.prefixes (p : Pending) : List Cidr := decompose (8 * p.lenA.toNat) p.a.toNat p.b.toNat

/-- The state DECOMPOSE leaves on a range: OUT below the length of the list, COUNT and RLEN are written,
and nothing else but STATUS (44_decompose.md R180, R187). -/
def State.afterDecompose (s : State) (p : Pending) : State :=
  s.afterOk fun b => { b with
    out := overlay p.prefixes b.out, count := BitVec.ofNat 9 p.prefixes.length, rLen := p.lenA }

section afterDecompose
variable (s : State) (p : Pending)

@[simp] theorem State.afterDecompose_err : (s.afterDecompose p).blk.err = false := rfl
@[simp] theorem State.afterDecompose_count :
    (s.afterDecompose p).blk.count = BitVec.ofNat 9 p.prefixes.length := rfl
@[simp] theorem State.afterDecompose_out :
    (s.afterDecompose p).blk.out = overlay p.prefixes s.blk.out := rfl

/-- A completion looks at what `f` makes of the block at hand, and not at `f` elsewhere. -/
theorem State.afterOk_congr {f g : Block → Block} (h : f s.blk = g s.blk) :
    s.afterOk f = s.afterOk g := by
  rw [State.afterOk, State.afterOk, h]

/-- DECOMPOSE leaves the registers other than OUT, COUNT, RLEN and STATUS (44_decompose.md R187). -/
theorem State.afterDecompose_frame :
    s.afterDecompose p = s.afterOk fun b => { b with
      out := (s.afterDecompose p).blk.out, count := (s.afterDecompose p).blk.count
      rLen := p.lenA } :=
  s.afterOk_congr rfl

end afterDecompose

section range
variable {p : Pending} (hpair : ValidPair p) (hab : p.a.toNat ≤ p.b.toNat)
include hpair hab

theorem Pending.prefixes_tile :
    Tiles (8 * p.lenA.toNat) p.a.toNat p.prefixes (p.b.toNat + 1) :=
  decompose_tiles hab (toNat_lt_of_validPair hpair).2

/-- OUT never overflows (44_decompose.md R189). -/
theorem Pending.prefixes_length_le : p.prefixes.length ≤ 254 := by
  have ⟨⟨hlen, _⟩, _⟩ := hpair
  have hwidth := width_legal hlen
  have hlength := decompose_length_le (by omega) hab (toNat_lt_of_validPair hpair).2
  rw [Pending.prefixes]
  omega

/-- Every prefix fits the fields of an entry of OUT (44_decompose.md R183, R187). -/
theorem Pending.prefixes_fit : ∀ c ∈ p.prefixes, c.addr < 2 ^ 128 ∧ c.bits < 2 ^ 8 := by
  intro c hc
  have htiles := Pending.prefixes_tile hpair hab
  have ⟨⟨hlen, _⟩, _⟩ := hpair
  have hwidth := width_le hlen
  have haddr := (htiles.addr_lt.2 c hc).2
  have hbits := htiles.bits_le c hc
  have hb := (p.b).isLt
  exact ⟨by omega, by omega⟩

/-- Every address of the list is below `2^W`, so the result check passes (44_decompose.md R183). -/
theorem decomposeEffect_ok (plen : Nat) : Instr.effect (.decompose plen) p =
    .ok { out := some p.prefixes, rLen := some p.lenA } := by
  obtain ⟨-, hb⟩ := toNat_lt_of_validPair hpair
  have haddr := (Pending.prefixes_tile hpair hab).addr_lt.2
  rw [effect_of_range rfl hpair hab]
  apply checked_ok
  rw [Results.fits_iff]
  refine ⟨nofun, nofun, fun l hl c hc => ?_⟩
  obtain rfl := Option.some.inj hl
  have hlast := (haddr c hc).2
  omega

/-! ### The state DECOMPOSE leaves -/

/-- On a range DECOMPOSE writes OUT below the length of the list, COUNT and RLEN, and nothing else but
STATUS (44_decompose.md R180, R187). -/
theorem exec_decompose {s : State} (hp : s.blk.pending = some p) (plen : Nat) :
    exec (.decompose plen) s = .next (s.afterDecompose p) :=
  exec_of_effect_ok hp (decomposeEffect_ok hpair hab plen)

/-- COUNT holds the length of the list as it is (44_decompose.md R189). -/
theorem afterDecompose_count_toNat (s : State) :
    (s.afterDecompose p).blk.count.toNat = p.prefixes.length := by
  have hlength := Pending.prefixes_length_le hpair hab
  rw [State.afterDecompose_count, BitVec.toNat_ofNat]
  exact Nat.mod_eq_of_lt (by omega)

/-- The host reads back the list of the loop (10_state.md R35). -/
theorem afterDecompose_decomposition (s : State) :
    (s.afterDecompose p).blk.decomposition = p.prefixes := by
  have hlength : p.prefixes.length ≤ Config.outDepth :=
    (Pending.prefixes_length_le hpair hab).trans (by decide)
  exact decomposition_overlay _ p.prefixes hlength (Pending.prefixes_fit hpair hab)
    (s.afterDecompose_count p) (s.afterDecompose_out p)

/-- The entries below COUNT hold the prefixes of the list as they are (44_decompose.md R187). -/
theorem Pending.overlay_prefixes_toNat (out : Vector OutEntry Config.outDepth)
    {i : Fin Config.outDepth} (hi : i.val < p.prefixes.length) :
    ((overlay p.prefixes out)[i]).addr.toNat = p.prefixes[i.val].addr ∧
      ((overlay p.prefixes out)[i]).bits.toNat = p.prefixes[i.val].bits := by
  obtain ⟨haddr, hbits⟩ := Pending.prefixes_fit hpair hab _ (List.getElem_mem hi)
  rw [overlay_of_lt _ hi]
  exact ⟨(BitVec.toNat_ofNat _ _).trans (Nat.mod_eq_of_lt haddr),
    (BitVec.toNat_ofNat _ _).trans (Nat.mod_eq_of_lt hbits)⟩

end range

/-! ### The obligations on a range -/

/-- Settles O25: the host reads back the list of the loop, which tiles the range, and no cover of the
range is shorter. -/
theorem decomposeTilesMinimally : Obligations.DecomposeTilesMinimally := by
  intro plen s p hp hpair hab
  refine ⟨_, exec_decompose hpair hab hp plen, s.afterDecompose_err p, ?_⟩
  rw [afterDecompose_decomposition hpair hab, afterDecompose_count_toNat hpair hab]
  refine ⟨rfl, Pending.prefixes_tile hpair hab, ?minimal⟩
  case minimal =>
    obtain ⟨-, hb⟩ := toNat_lt_of_validPair hpair
    exact fun l _ hcover => IsCover.decomposeLoop_length_le hb _ hab hcover

/-- Settles O26: the entries below COUNT are the prefixes of the list, whose order and sizes are those
of a tiling, and the others are kept. -/
theorem decomposeWritesBelowCount : Obligations.DecomposeWritesBelowCount := by
  intro plen s p hp hpair hab
  refine ⟨_, exec_decompose hpair hab hp plen, s.afterDecompose_frame p, ?_⟩
  have htiles := Pending.prefixes_tile hpair hab
  have hentry := @Pending.overlay_prefixes_toNat _ hpair hab s.blk.out
  rw [State.afterDecompose_out, afterDecompose_count_toNat hpair hab]
  refine ⟨fun i j hij hj => ?ascending, fun i hi => ?bits, fun i hi => overlay_of_le _ hi⟩
  case ascending =>
    have hi : i.val < p.prefixes.length := Nat.lt_trans hij hj
    rw [(hentry hi).1, (hentry hj).1]
    exact List.pairwise_iff_getElem.1 htiles.pairwise_addr_lt i.val j.val hi hj hij
  case bits =>
    rw [(hentry hi).2]
    exact htiles.bits_le _ (List.getElem_mem hi)

/-! ### What the outcome depends on -/

/-- The command word is not looked at (44_decompose.md R190). -/
theorem decomposeEffect_congr {p q : Pending} (ha : p.a = q.a) (hlenA : p.lenA = q.lenA)
    (hb : p.b = q.b) (hlenB : p.lenB = q.lenB) : decomposeEffect p = decomposeEffect q := by
  simp only [decomposeEffect, twoOperands, ha, hlenA, hb, hlenB]

theorem eq_of_checked_eq_ok {W : Nat} {r r' : Results} (h : checked W r = .ok r') : r' = r := by
  rw [checked] at h
  cases hfits : r.fits W <;> rw [hfits] at h
  case false => exact nomatch h
  case true => exact (Except.ok.inj h).symm

/-- A success of DECOMPOSE always has a list to write. -/
theorem exists_out_of_decomposeEffect {p : Pending} {r : Results} (h : decomposeEffect p = .ok r) :
    ∃ l, r.out = some l := by
  rw [decomposeEffect] at h
  rcases hW : twoOperands p with k | W <;> rw [hW] at h
  case error => exact nomatch h
  case ok =>
    rw [except_ok_bind] at h
    rcases hrange : checkRange p.a.toNat p.b.toNat with k | _ <;> rw [hrange] at h
    case error => exact nomatch h
    case ok => exact ⟨_, congrArg Results.out (eq_of_checked_eq_ok h)⟩

section completeOk
variable {r : Results} {l : List Cidr} (h : r.out = some l) (b : Block)
include h

theorem Block.completeOk_count : (b.completeOk r).count = BitVec.ofNat 9 l.length := by
  simp only [Block.completeOk, Block.applyResults, h, Option.map_some, Option.getD_some]

theorem Block.completeOk_out : (b.completeOk r).out = overlay l b.out := by
  simp only [Block.completeOk, Block.applyResults, h, Option.map_some, Option.getD_some]

end completeOk

/-- Settles O30: the two commands have one effect; an error reports its kind alone, and a list gives
COUNT and the entries below it alone. -/
theorem decomposeIsPure : Obligations.DecomposeIsPure := by
  intro n m s1 s2 t1 t2 p1 p2 hp1 hp2 ha hlenA hb hlenB h1 h2
  rw [exec_eq_runCommand, State.runCommand_some hp1] at h1
  rw [exec_eq_runCommand, State.runCommand_some hp2] at h2
  have heffect : Instr.effect (.decompose n) p1 = Instr.effect (.decompose m) p2 :=
    decomposeEffect_congr ha hlenA hb hlenB
  rw [← heffect] at h2
  rcases State.complete_cases h1 with ⟨r, hr, rfl⟩ | ⟨k, hk, hreported, rfl⟩
  case inl =>
    obtain ⟨l, hl⟩ := exists_out_of_decomposeEffect hr
    rw [hr, State.complete_ok] at h2
    obtain rfl := Host.Outcome.next.inj h2
    refine ⟨rfl, rfl, fun _ => ?_⟩
    rw [State.withBlk_blk, State.withBlk_blk, Block.completeOk_count hl, Block.completeOk_count hl,
      Block.completeOk_out hl, Block.completeOk_out hl, BitVec.toNat_ofNat]
    refine ⟨rfl, fun i hi => ?_⟩
    have hil : i.val < l.length := hi.trans_le (Nat.mod_le _ _)
    rw [overlay_of_lt _ hil, overlay_of_lt _ hil]
  case inr =>
    rw [hk, State.complete_error s2 hreported] at h2
    obtain rfl := Host.Outcome.next.inj h2
    exact ⟨rfl, rfl, nofun⟩

end Sys2Proof.Machine
end

section
/-! PROOFS. The interrupt line and HOSTERR: what raises and lowers irq, what a refused access leaves alone,
and which steps clear HOSTERR (spec/60_exceptions.md R227, R230). -/

namespace Sys2Proof.Machine

/-! ### The interrupt line -/

theorem Block.irq_eq_true_iff (b : Block) : b.irq = true ↔ b.done = true ∧ b.irqEn = true :=
  Bool.and_eq_true_iff

section irq
variable {b : Block}

theorem Block.irq_of_done (h : b.done = true) : b.irq = b.irqEn := by
  rw [Block.irq, h, Bool.true_and]

theorem Block.irq_of_not_done (h : b.done = false) : b.irq = false := by
  rw [Block.irq, h, Bool.false_and]

theorem Block.irq_of_not_irqEn (h : b.irqEn = false) : b.irq = false := by
  rw [Block.irq, h, Bool.and_false]

/-- Writing 1 to STATUS bit 1, the return from a completion, lowers irq (60_exceptions.md R229). -/
theorem Block.writeStatus_irq {v : Word} (h : v.getLsbD 1 = true) : (b.writeStatus v).irq = false :=
  Block.irq_of_not_done (by rw [Block.writeStatus_eq, if_pos h])

/-- A CTRL write with IRQ_EN 0 lowers irq; where it also resets, the reset does (10_state.md R29). -/
theorem Block.writeCtrl_irq {v : Word} (h : v.getLsbD 0 = false ∨ v.getLsbD 1 = true) :
    (b.writeCtrl v).irq = false := by
  rcases hsrst : v.getLsbD 1 with _ | _
  case false =>
    rw [Block.writeCtrl_irqEn b hsrst]
    exact Block.irq_of_not_irqEn (h.resolve_right (Bool.eq_false_iff.mp hsrst))
  case true =>
    rw [Block.writeCtrl_srst b hsrst]
    exact Block.irq_of_not_done rfl

end irq

/-- A completion raises DONE and keeps IRQ_EN, so irq is IRQ_EN after it (60_exceptions.md R230). -/
theorem State.engineTurn_irq {s t : State} {p : Pending} (hr : s.rstN = true)
    (hp : s.blk.pending = some p) (h : s.engineTurn = .next t) : t.blk.irq = s.blk.irqEn := by
  rcases State.engineTurn_completes hr hp h with ⟨r, rfl⟩ | ⟨k, rfl⟩
  · exact Block.irq_of_done (s.blk.completeOk_done r)
  · exact Block.irq_of_done (s.blk.completeErr_done k)

theorem step_of_resetLow {s : State} {rest : List Event} (h : s.agenda = .resetLow :: rest) :
    step s = .next ({ s with agenda := rest } : State).resetLow := by
  rw [step, h]; rfl

/-- Settles O49: a completion sets DONE, and each deasserting cause clears DONE or IRQ_EN. -/
theorem interruptFollowsDone : Obligations.InterruptFollowsDone := by
  refine ⟨Block.irq_eq_true_iff, fun s t p => State.engineTurn_irq, fun s v hr => ?writes,
    fun s t rest hagenda hstep => ?resetLow⟩
  case writes =>
    have hctrl : s.access (writeTxn 0x004 v) = s.withBlk (s.blk.writeCtrl v) :=
      State.access_writeTxn_offset hr .ctrl rfl
    have hstatus : s.access (writeTxn 0x00C v) = s.withBlk (s.blk.writeStatus v) :=
      State.access_writeTxn_offset hr .status rfl
    rw [hctrl, hstatus]
    refine ⟨Block.writeStatus_irq, fun hirqEn => Block.writeCtrl_irq (.inl hirqEn),
      fun hsrst => Block.writeCtrl_irq (.inr hsrst), fun hidle => ?_⟩
    rw [State.access_writeTxn_cmd_idle hr hidle]
    exact Block.irq_of_not_done (s.blk.accept_done v)
  case resetLow =>
    obtain rfl := Host.Outcome.next.inj ((step_of_resetLow hagenda).symm.trans hstep)
    exact Block.irq_of_not_done rfl

/-! ### What clears HOSTERR -/

theorem Block.refuse_irq (b : Block) : b.refuse.irq = b.irq := rfl

/-- Of the register writes only a STATUS write with bit 3 set and a soft reset clear HOSTERR
(10_state.md R28, R29). -/
theorem Block.writeReg_clears_hostErr {b : Block} {r : Reg} {v : Word} (hset : b.hostErr = true)
    (hclear : (b.writeReg r v).hostErr = false) :
    (r = .status ∧ v.getLsbD 3 = true) ∨ (r = .ctrl ∧ v.getLsbD 1 = true) := by
  rcases b.writeReg_cases r v with hw | ⟨-, -, hw⟩ | ⟨-, _, _, _, _, hw⟩ | ⟨hstatus, hw⟩ |
    ⟨hctrl, hsrst, -⟩ | ⟨-, -, hw⟩
  case inr.inr.inr.inl =>
    rw [hw, Block.writeStatus, hset] at hclear
    exact .inl ⟨hstatus, by simpa using hclear⟩
  case inr.inr.inr.inr.inl => exact .inr ⟨hctrl, hsrst⟩
  -- a refusal sets HOSTERR; an acceptance, an operand write and an IRQ_EN write keep it
  all_goals
    rw [hw] at hclear
    simp [hset] at hclear

/-- A full-word write to STATUS with bit 3 set, the host's clearing of HOSTERR (20_memory.md R69). -/
def BusTxn.ClearsHostErr (x : BusTxn) : Prop :=
  x.sel = true ∧ x.we = true ∧ x.off = 0x00C ∧ x.be = 0b1111#4 ∧ x.wdata.getLsbD 3 = true

/-- Of the transactions only the host's clearing of it and a soft reset clear HOSTERR. -/
theorem State.access_clears_hostErr {s : State} {x : BusTxn} (hset : s.blk.hostErr = true)
    (hclear : (s.access x).blk.hostErr = false) : x.softResets = true ∨ x.ClearsHostErr := by
  rcases s.access_cases x with h | h | ⟨v, h⟩ | h | h | ⟨r, -, hsel, hwe, htarget, h⟩
  case inr.inr.inr.inr.inr =>
    rw [h] at hclear
    rcases Block.writeReg_clears_hostErr hset hclear with ⟨rfl, hbit⟩ | ⟨rfl, hbit⟩
    case inl =>
      obtain ⟨hoff, hbe⟩ := target_eq_some htarget
      exact .inr ⟨hsel, hwe, hoff, hbe, hbit⟩
    case inr => exact .inl (by simp [BusTxn.softResets, hsel, hwe, htarget, hbit])
  -- no other transaction clears anything
  all_goals
    rw [h] at hclear
    simp [hset] at hclear

/-- No completion touches HOSTERR (40_command.md R113). -/
theorem State.engineTurn_hostErr {s t : State} (h : s.engineTurn = .next t) :
    t.blk.hostErr = s.blk.hostErr := by
  rcases State.engineTurn_cases h with ⟨-, rfl⟩ | ⟨-, -, -, ⟨-, r, -, -, rfl⟩ | ⟨-, k, -, -, -, rfl⟩ |
    ⟨-, -, rfl⟩⟩ <;> rfl

/-- The events that clear HOSTERR: a reset by the pin, a soft reset, and the host's clearing of it. -/
theorem State.perform_clears_hostErr {s t : State} {e : Event} (h : s.perform e = .next t)
    (hset : s.blk.hostErr = true) (hclear : t.blk.hostErr = false) :
    e.abandons = true ∨ e = .resetHigh ∨ ∃ x, e.txn = some x ∧ x.ClearsHostErr := by
  have hport {x : BusTxn} (htxn : e.txn = some x) (haccess : s.access x = t) :
      e.abandons = true ∨ e = .resetHigh ∨ ∃ x, e.txn = some x ∧ x.ClearsHostErr := by
    subst haccess
    rcases State.access_clears_hostErr hset hclear with hsoft | hx
    · exact .inl (by simp [Event.abandons, htxn, hsoft])
    · exact .inr (.inr ⟨x, htxn, hx⟩)
  cases e with
  | engineTurn => simp [State.engineTurn_hostErr h, hset] at hclear
  | port x => exact hport rfl (Host.Outcome.next.inj h)
  | system addr we be v => exact hport rfl (Host.Outcome.next.inj h)
  | resetLow => exact .inl rfl
  | resetHigh => exact .inr (.inl rfl)

/-- Settles O50: a refused access is the refusal of O38, and a step that clears HOSTERR is an event that
does, since the engine's turn keeps it. -/
theorem hostErrIsSticky : Obligations.HostErrIsSticky := by
  refine ⟨fun s x hr hsel hx => ?refused, fun s t hstep hset hclear => ?cleared⟩
  case refused =>
    rw [refusedAccessSetsHostErr s x hr hsel hx]
    exact ⟨rfl, rfl, rfl, rfl, rfl, s.blk.refuse_irq⟩
  case cleared =>
    rcases step_cases hstep with ⟨-, hturn⟩ | ⟨e, rest, hagenda, hevent⟩
    case inl => simp [State.engineTurn_hostErr hturn, hset] at hclear
    case inr => exact ⟨e, rest, hagenda, State.perform_clears_hostErr hevent hset hclear⟩

end Sys2Proof.Machine
end

section
/-! PROOFS. Soft reset by the host: what a CTRL write with SRST set leaves of the block
(spec/70_reset_and_hazards.md R261). -/

namespace Sys2Proof.Machine

/-- Settles O44: the soft-reset clause of O43, read field by field from R260's values. The write is a CTRL
write whether a command is in flight or not, so no case on BUSY is needed. -/
theorem softResetKeepsOnlyOut : Obligations.SoftResetKeepsOnlyOut := by
  intro s v hr hsrst
  obtain ⟨hsoft, -, -⟩ := controlAndStatusWrites s v hr
  rw [hsoft hsrst, Block.atReset]

end Sys2Proof.Machine
end

section
/-! PROOFS. The encoder and the decoder are inverse: a word is its three fields, and both agree on what
they hold (spec/30_encoding.md R90 to R97). -/

namespace Sys2Proof

/-- A word is RSVD, PLEN and OPC put together, so equal fields are equal words (30_encoding.md R90). -/
theorem word_eq_of_fields {w v : Word} (hrsvd : rsvdField w = rsvdField v)
    (hplen : plenField w = plenField v) (hopc : opcField w = opcField v) : w = v := by
  apply BitVec.eq_of_toNat_eq
  have hr := congrArg BitVec.toNat hrsvd
  have ho := congrArg BitVec.toNat hopc
  rw [plenField_eq, plenField_eq] at hplen
  simp only [rsvdField, opcField, BitVec.extractLsb'_toNat, Nat.shiftRight_eq_div_pow] at hr ho
  omega

/-- The PLEN a word holds is below 256, so the command of a word has a word (30_encoding.md R91). -/
theorem wellFormed_of_plenField {w : Word} {i : Instr} (h : plenField w = i.plen) :
    WellFormed i = true := by
  rw [WellFormed, decide_eq_true_iff, ← h, plenField_eq]
  exact Nat.mod_lt _ (by decide)

/-- Settles O1: the encoder puts each field where the decoder looks for it. -/
theorem decodeOfEncode : Obligations.DecodeOfEncode := by
  intro i hwf
  obtain ⟨hrsvd, hplen, hopc⟩ := Laws.wordFields_of_encode i hwf
  exact (decode_eq_ok_iff _ i).mpr ⟨hrsvd, hopc, hplen⟩

/-- Settles O2: the word and the encoding of its command have the same three fields. -/
theorem encodeOfDecode : Obligations.EncodeOfDecode := by
  intro w i hdecode
  obtain ⟨hrsvd, hopc, hplen⟩ := (decode_eq_ok_iff w i).mp hdecode
  have hwf := wellFormed_of_plenField hplen
  obtain ⟨hrsvd', hplen', hopc'⟩ := Laws.wordFields_of_encode i hwf
  exact ⟨hwf, word_eq_of_fields (hrsvd'.trans hrsvd.symm) (hplen'.trans hplen.symm)
    (hopc'.trans hopc.symm)⟩

/-- Settles O4: a listed legal word is read by its fields, and each listed illegal word meets the clause
of R93 it is listed for. -/
theorem listedWordsDecode : Obligations.ListedWordsDecode := by
  refine ⟨?cmp, ?plen2mask, ?expand, ?decompose, ?stepUp, ?zeroOpcode, ?unassigned, ?reserved⟩
  case cmp => exact decode_of_fields (.cmp 24) rfl rfl rfl
  case plen2mask => exact decode_of_fields (.plen2mask 33) rfl rfl rfl
  case expand => exact decode_of_fields (.expand 24) rfl rfl rfl
  case decompose => exact decode_of_fields (.decompose 170) rfl rfl rfl
  case stepUp => exact decode_of_fields (.stepUp 0) rfl rfl rfl
  case zeroOpcode => rfl
  case unassigned => rfl
  case reserved => rfl

end Sys2Proof
end

section
/-! PROOFS. What every command answers: results that fit their fields, or an error that is reported; so
that no step stops (spec/40_command.md R112 to R121, spec/60_exceptions.md R225). -/

namespace Sys2Proof.Machine

/-! ### The results a command can write -/

/-- Results that keep the bounds of the result registers: RNUM, RLEN, the flags and the list of OUT
(10_state.md R32 to R35, 44_decompose.md R183, R189). -/
structure Results.Legal (r : Results) : Prop where
  rNum_le : ∀ n ∈ r.rNum, n ≤ 128
  rLen_legal : ∀ len ∈ r.rLen, len = 4#5 ∨ len = 16#5
  flags : ∀ f ∈ r.cmp, (f.lt && f.eq) = false ∧ (f.lt && f.gt) = false ∧ (f.eq && f.gt) = false
  fits_out : ∀ l ∈ r.out, l.length ≤ 254 ∧ ∀ c ∈ l, c.addr < 2 ^ 128 ∧ c.bits < 2 ^ 8
  tiles_out : ∀ l ∈ r.out, ∃ W s t, (W = 32 ∨ W = 128) ∧ Tiles W s l t

/-- The results of the ten commands that measure one length, with the addresses they write. -/
theorem Results.legal_of_measure {len : Len} {n : Nat} (hlen : len = 4#5 ∨ len = 16#5)
    (hn : n ≤ 8 * len.toNat) (r0 r1 : Option Nat) :
    Results.Legal { r0 := r0, r1 := r1, rNum := some n, rLen := some len } where
  rNum_le _ h := Option.some.inj h ▸ hn.trans (width_le hlen)
  rLen_legal _ h := Option.some.inj h ▸ hlen
  flags := nofun
  fits_out := nofun
  tiles_out := nofun

/-- One comparison holds and the two others fail (41_address.md R130). -/
theorem compareFlags_exclusive (a b : Nat) :
    ((compareFlags a b).lt && (compareFlags a b).eq) = false ∧
      ((compareFlags a b).lt && (compareFlags a b).gt) = false ∧
      ((compareFlags a b).eq && (compareFlags a b).gt) = false := by
  simp only [compareFlags, Bool.and_eq_false_iff, decide_eq_false_iff_not]
  omega

theorem Results.legal_of_compare (a b : Nat) :
    Results.Legal { cmp := some (compareFlags a b) } where
  rNum_le := nofun
  rLen_legal := nofun
  flags _ h := Option.some.inj h ▸ compareFlags_exclusive a b
  fits_out := nofun
  tiles_out := nofun

theorem lenA_legal_of_validPair {p : Pending} (h : ValidPair p) : p.lenA = 4#5 ∨ p.lenA = 16#5 :=
  h.1.1

theorem Results.legal_of_prefixes {p : Pending} (hpair : ValidPair p)
    (hab : p.a.toNat ≤ p.b.toNat) :
    Results.Legal { out := some p.prefixes, rLen := some p.lenA } where
  rNum_le := nofun
  rLen_legal _ h := Option.some.inj h ▸ lenA_legal_of_validPair hpair
  flags := nofun
  fits_out _ h := Option.some.inj h ▸
    ⟨Pending.prefixes_length_le hpair hab, Pending.prefixes_fit hpair hab⟩
  tiles_out _ h := Option.some.inj h ▸
    ⟨_, _, _, width_legal (lenA_legal_of_validPair hpair), Pending.prefixes_tile hpair hab⟩

/-! ### The outcome of a command -/

/-- The outcome is one a completion can report: legal results, or an error other than
AddressConversionError (40_command.md R113, 60_exceptions.md R225). -/
def Reports : Except ErrorKind Results → Prop
  | .ok r => r.Legal
  | .error k => k ≠ .addressConversionError

section checks
variable {i : Instr} {p : Pending}

theorem reports_of_oneOperand {rest : Nat → Except ErrorKind Results}
    (heffect : Instr.effect i p = oneOperand p >>= rest)
    (hvalid : ValidAddr p.a p.lenA → Reports (Instr.effect i p)) : Reports (Instr.effect i p) := by
  by_cases ha : ValidAddr p.a p.lenA
  case pos => exact hvalid ha
  case neg =>
    rw [heffect, oneOperand_error ha]
    exact nofun

theorem reports_of_prefixOperand {plen : Nat} {rest : Nat → Except ErrorKind Results}
    (heffect : Instr.effect i p = oneOperand p >>= fun W => checkPlen plen W >>= fun _ => rest W)
    (hvalid : ValidAddr p.a p.lenA → plen ≤ 8 * p.lenA.toNat → Reports (Instr.effect i p)) :
    Reports (Instr.effect i p) := by
  refine reports_of_oneOperand heffect fun ha => ?_
  rcases Nat.lt_or_ge (8 * p.lenA.toNat) plen with hlong | hplen
  case inl =>
    rw [heffect, oneOperand_ok ha, except_ok_bind, checkPlen_error hlong]
    exact nofun
  case inr => exact hvalid ha hplen

theorem reports_of_twoOperands {rest : Nat → Except ErrorKind Results}
    (heffect : Instr.effect i p = twoOperands p >>= rest)
    (hvalid : ValidPair p → Reports (Instr.effect i p)) : Reports (Instr.effect i p) := by
  by_cases ha : ValidAddr p.a p.lenA
  case neg =>
    rw [heffect, twoOperands_errorA ha]
    exact nofun
  by_cases hb : ValidAddr p.b p.lenB
  case neg =>
    rw [heffect, twoOperands_errorB ha hb]
    exact nofun
  by_cases hlen : p.lenA = p.lenB
  case neg =>
    rw [heffect, twoOperands_family ha hb hlen]
    exact nofun
  exact hvalid ⟨ha, hb, hlen⟩

theorem reports_of_range {rest : Nat → Except ErrorKind Results}
    (heffect : Instr.effect i p =
      twoOperands p >>= fun W => checkRange p.a.toNat p.b.toNat >>= fun _ => rest W)
    (hvalid : ValidPair p → p.a.toNat ≤ p.b.toNat → Reports (Instr.effect i p)) :
    Reports (Instr.effect i p) := by
  refine reports_of_twoOperands heffect fun hpair => ?_
  rcases Nat.lt_or_ge p.b.toNat p.a.toNat with hba | hab
  case inl =>
    rw [heffect, twoOperands_ok hpair, except_ok_bind, checkRange_error hba]
    exact nofun
  case inr => exact hvalid hpair hab

end checks

/-- Every command answers legal results or an error that is reported: the result check of R121 never
fails (40_command.md R121). -/
theorem Instr.effect_reports (i : Instr) (p : Pending) : Reports (Instr.effect i p) := by
  cases i with
  | cmp n =>
    refine reports_of_twoOperands rfl fun hpair => ?_
    rw [Instr.effect, cmpEffect_ok hpair]
    exact Results.legal_of_compare _ _
  | mask2plen n =>
    refine reports_of_oneOperand rfl fun ha => ?_
    rw [Instr.effect]
    by_cases hmask : ∃ n ≤ 8 * p.lenA.toNat,
        p.a.toNat = 2 ^ (8 * p.lenA.toNat) - 2 ^ (8 * p.lenA.toNat - n)
    case pos =>
      obtain ⟨n, hn, heq⟩ := hmask
      rw [mask2plenEffect_of_mask ha hn heq]
      exact Results.legal_of_measure ha.1 hn none none
    case neg =>
      push Not at hmask
      rw [mask2plenEffect_of_not_mask ha hmask]
      exact nofun
  | plen2mask n =>
    rw [Instr.effect]
    by_cases hlen : p.lenA = 4#5 ∨ p.lenA = 16#5
    case neg =>
      rw [plen2maskEffect_badLength hlen]
      exact nofun
    rcases Nat.lt_or_ge (8 * p.lenA.toNat) n with hlong | hplen
    case inl =>
      rw [plen2maskEffect_longPlen hlen hlong]
      exact nofun
    case inr =>
      rw [plen2maskEffect_ok hlen hplen]
      exact Results.legal_of_measure hlen hplen _ none
  | addrmask2prefix n =>
    refine reports_of_twoOperands rfl fun hpair => ?_
    rw [Instr.effect]
    by_cases hmask : ∃ n ≤ 8 * p.lenA.toNat,
        p.b.toNat = 2 ^ (8 * p.lenA.toNat) - 2 ^ (8 * p.lenA.toNat - n)
    case pos =>
      obtain ⟨n, hn, heq⟩ := hmask
      rw [addrmask2prefixEffect_of_mask hpair hn heq]
      exact Results.legal_of_measure (lenA_legal_of_validPair hpair) hn _ none
    case neg =>
      push Not at hmask
      rw [addrmask2prefixEffect_of_not_mask hpair hmask]
      exact nofun
  | expand n =>
    refine reports_of_prefixOperand rfl fun ha hplen => ?_
    rw [expandEffect_ok ha hplen]
    exact Results.legal_of_measure ha.1 hplen _ _
  | netmask n =>
    refine reports_of_prefixOperand rfl fun ha hplen => ?_
    rw [netmaskEffect_ok ha hplen]
    exact Results.legal_of_measure ha.1 hplen _ none
  | canon n =>
    refine reports_of_prefixOperand rfl fun ha hplen => ?_
    rw [canonEffect_ok ha hplen]
    exact Results.legal_of_measure ha.1 hplen _ none
  | decompose n =>
    refine reports_of_range rfl fun hpair hab => ?_
    rw [decomposeEffect_ok hpair hab]
    exact Results.legal_of_prefixes hpair hab
  | alignEnd n =>
    refine reports_of_oneOperand rfl fun ha => ?_
    rw [Instr.effect, alignEndEffect_ok ha]
    exact Results.legal_of_measure ha.1 (trailingOnes_spec _ _).1 none none
  | alignStart n =>
    refine reports_of_oneOperand rfl fun ha => ?_
    rw [Instr.effect, alignStartEffect_ok ha]
    exact Results.legal_of_measure ha.1 (trailingZeros_spec ha.2).1 none none
  | stepDown n =>
    refine reports_of_range rfl fun hpair hab => ?_
    rw [stepDownEffect_ok hpair hab]
    exact Results.legal_of_measure (lenA_legal_of_validPair hpair) (Nat.sub_le _ _) _ _
  | stepUp n =>
    refine reports_of_range rfl fun hpair hab => ?_
    rw [stepUpEffect_ok hpair hab]
    exact Results.legal_of_measure (lenA_legal_of_validPair hpair) (Nat.sub_le _ _) _ _

/-! ### The engine's turn on a command in flight -/

/-- What the engine does with a command in flight is fixed by the latched copy alone: one completion,
whatever else the state holds (40_command.md R111, R113). -/
theorem Pending.completion (p : Pending) :
    (∃ r : Results, r.Legal ∧ ∀ s : State, s.rstN = true → s.blk.pending = some p →
      s.engineTurn = .next (s.withBlk (s.blk.completeOk r))) ∨
    ∃ k, k ≠ .addressConversionError ∧ ∀ s : State, s.rstN = true → s.blk.pending = some p →
      s.engineTurn = .next (s.withBlk (s.blk.completeErr k)) := by
  rcases hdecode : decode p.word with w | i
  case error =>
    exact .inr ⟨.illegalCommand, nofun, fun s hr hp => State.engineTurn_illegal hr hp hdecode⟩
  case ok =>
    have hturn {s : State} (hr : s.rstN = true) (hp : s.blk.pending = some p) :
        s.engineTurn = s.complete (Instr.effect i p) := by
      rw [State.engineTurn_legal hr hp hdecode, exec_eq_runCommand, State.runCommand_some hp]
    have hreports := Instr.effect_reports i p
    rcases heffect : Instr.effect i p with k | r <;> rw [heffect] at hreports hturn
    case error =>
      refine .inr ⟨k, hreports, fun s hr hp => ?_⟩
      rw [hturn hr hp, State.complete_error s hreports]
    case ok => exact .inl ⟨r, hreports, fun s hr hp => hturn hr hp⟩

/-- With nothing in flight, or with the block held in reset, the engine's turn passes (40_command.md R112,
70_reset_and_hazards.md R260). -/
theorem State.engineTurn_passes {s : State} (h : s.rstN = false ∨ s.blk.pending = none) :
    s.engineTurn = .next s := by
  rcases h with hr | hp
  case inl => simp only [State.engineTurn, hr]
  case inr =>
    rw [State.engineTurn, hp]
    cases s.rstN <;> rfl

/-- The engine's turn never stops the machine. -/
theorem State.engineTurn_total (s : State) : Completes s.engineTurn := by
  rcases hr : s.rstN with _ | _
  case false => exact ⟨s, State.engineTurn_passes (.inl hr)⟩
  case true =>
    rcases hp : s.blk.pending with _ | p
    case none => exact ⟨s, State.engineTurn_passes (.inr hp)⟩
    case some =>
      rcases p.completion with ⟨r, -, hturn⟩ | ⟨k, -, hturn⟩
      · exact ⟨_, hturn s hr hp⟩
      · exact ⟨_, hturn s hr hp⟩

/-- Settles O8: a transaction and a reset are a next state by definition, and the engine's turn is one
because no command raises AddressConversionError. -/
theorem stepNeverStops : Obligations.StepNeverStops := by
  intro s
  unfold step
  split
  case h_1 => exact s.engineTurn_total
  case h_2 e rest hagenda =>
    cases e with
    | engineTurn => exact State.engineTurn_total _
    | port x => exact ⟨_, rfl⟩
    | system addr we be v => exact ⟨_, rfl⟩
    | resetLow => exact ⟨_, rfl⟩
    | resetHigh => exact ⟨_, rfl⟩

end Sys2Proof.Machine
end

section
/-! PROOFS. What one step can do to the block and to the reset pin, and what every step keeps: the
invariant, the tiling of OUT, and who writes what (spec/10_state.md R22 to R38; spec/20_memory.md R60 to
R73; spec/70_reset_and_hazards.md R260 to R264). -/

namespace Sys2Proof.Machine

/-! ### What a host transaction can do to the block -/

/-- The changes a host transaction `x` can make to the block (20_memory.md R64 to R69,
40_command.md R110). -/
inductive Block.HostMove (x : BusTxn) (b : Block) : Block → Prop
  | refused : HostMove x b b.refuse
  | accepted (hidle : b.busy = false) : HostMove x b (b.accept x.wdata)
  | operands (hidle : b.busy = false) (a : Value) (lenA : Len) (b' : Value) (lenB : Len) :
    HostMove x b { b with a := a, lenA := lenA, b := b', lenB := lenB }
  | status : HostMove x b (b.writeStatus x.wdata)
  | softReset (hsoft : x.softResets = true) : HostMove x b (Block.atReset b.out)
  | irqEn (v : Bool) : HostMove x b { b with irqEn := v }

section access
variable {s : State} (x : BusTxn)

/-- While `rst_n` is low no transaction changes the block (70_reset_and_hazards.md R260). -/
theorem State.access_blk_of_low (hr : s.rstN = false) : (s.access x).blk = s.blk := by
  simp only [State.access, hr]
  cases x.sel <;> cases x.we <;> rfl

theorem State.access_rstN : (s.access x).rstN = s.rstN := by
  rcases s.access_cases x with h | h | ⟨v, h⟩ | h | h | ⟨r, -, -, -, -, h⟩ <;> rw [h] <;> rfl

theorem State.access_agenda : (s.access x).agenda = s.agenda := by
  rcases s.access_cases x with h | h | ⟨v, h⟩ | h | h | ⟨r, -, -, -, -, h⟩ <;> rw [h] <;> rfl

theorem State.access_hostMove :
    (s.access x).blk = s.blk ∨ Block.HostMove x s.blk (s.access x).blk := by
  rcases s.access_cases x with h | h | ⟨v, h⟩ | h | h | ⟨r, -, hsel, hwe, htarget, h⟩ <;> rw [h]
  case inl | inr.inl | inr.inr.inl => exact .inl rfl
  case inr.inr.inr.inl | inr.inr.inr.inr.inl => exact .inr .refused
  case inr.inr.inr.inr.inr =>
    right
    rw [State.withBlk_blk]
    rcases s.blk.writeReg_cases r x.wdata with hw | ⟨-, hidle, hw⟩ | ⟨hidle, a, lenA, b, lenB, hw⟩ |
      ⟨-, hw⟩ | ⟨hctrl, hsrst, hw⟩ | ⟨-, -, hw⟩ <;> rw [hw]
    · exact .refused
    · exact .accepted hidle
    · exact .operands hidle a lenA b lenB
    · exact .status
    · exact .softReset (by simp [BusTxn.softResets, hsel, hwe, htarget, hctrl, hsrst])
    · exact .irqEn _

end access

/-! ### What a step can do -/

/-- What a step from `s` to `t` can do to the block and to the reset pin: it passes, completes the
command in flight, carries out a transaction, or is a reset by the pin. -/
inductive State.Moves (s t : State) : Prop
  | passes (hblk : t.blk = s.blk) (hrst : t.rstN = s.rstN)
  | completesOk (p : Pending) (r : Results) (hp : s.blk.pending = some p) (hlegal : r.Legal)
    (hblk : t.blk = s.blk.completeOk r) (hrst : t.rstN = true)
  | completesErr (p : Pending) (k : ErrorKind) (hp : s.blk.pending = some p)
    (hk : k ≠ .addressConversionError) (hblk : t.blk = s.blk.completeErr k) (hrst : t.rstN = true)
  | host (e : Event) (rest : List Event) (x : BusTxn) (hagenda : s.agenda = e :: rest)
    (htxn : e.txn = some x) (hmove : Block.HostMove x s.blk t.blk) (hrst : t.rstN = true)
  | pinReset (e : Event) (rest : List Event) (hagenda : s.agenda = e :: rest)
    (he : e = .resetLow ∨ e = .resetHigh) (hblk : t.blk = Block.atReset (launchOut s.draws))

section moves
variable {s u t : State} (hsame : u.blk = s.blk) (hpin : u.rstN = s.rstN)
include hsame hpin

/-- The engine's turn of a state `u` that differs from `s` at most outside the block and the pin. -/
theorem State.engineTurn_moves (h : u.engineTurn = .next t) : s.Moves t := by
  have hpass (hidle : u.rstN = false ∨ u.blk.pending = none) : s.Moves t := by
    obtain rfl := Host.Outcome.next.inj ((State.engineTurn_passes hidle).symm.trans h)
    exact .passes hsame hpin
  rcases hr : u.rstN with _ | _
  case false => exact hpass (.inl hr)
  case true =>
    rcases hp : u.blk.pending with _ | p
    case none => exact hpass (.inr hp)
    case some =>
      rcases p.completion with ⟨r, hlegal, hturn⟩ | ⟨k, hk, hturn⟩ <;>
        obtain rfl := Host.Outcome.next.inj ((hturn u hr hp).symm.trans h)
      case inl => exact .completesOk p r (hsame ▸ hp) hlegal (congrArg (·.completeOk r) hsame) hr
      case inr => exact .completesErr p k (hsame ▸ hp) hk (congrArg (·.completeErr k) hsame) hr

/-- An access of a state `u` that differs from `s` at most outside the block and the pin. -/
theorem State.access_moves {e : Event} {rest : List Event} {x : BusTxn}
    (hagenda : s.agenda = e :: rest) (htxn : e.txn = some x) (h : u.access x = t) : s.Moves t := by
  subst h
  have hrst : (u.access x).rstN = u.rstN := State.access_rstN x
  rcases hr : u.rstN with _ | _
  case false => exact .passes ((State.access_blk_of_low x hr).trans hsame) (hrst.trans hpin)
  case true =>
    rcases State.access_hostMove (s := u) x with hkept | hmove
    · exact .passes (hkept.trans hsame) (hrst.trans hpin)
    · exact .host e rest x hagenda htxn (hsame ▸ hmove) (hrst.trans hr)

end moves

/-- Every step is one of the moves. -/
theorem step_moves {s t : State} (h : step s = .next t) : s.Moves t := by
  rcases step_cases h with ⟨-, hturn⟩ | ⟨e, rest, hagenda, hevent⟩
  case inl => exact State.engineTurn_moves rfl rfl hturn
  case inr =>
    have haccess {x : BusTxn} (htxn : e.txn = some x)
        (h : ({ s with agenda := rest } : State).access x = t) : s.Moves t :=
      State.access_moves (u := { s with agenda := rest }) rfl rfl hagenda htxn h
    cases e with
    | engineTurn => exact State.engineTurn_moves (u := { s with agenda := rest }) rfl rfl hevent
    | port x => exact haccess rfl (Host.Outcome.next.inj hevent)
    | system addr we be v => exact haccess rfl (Host.Outcome.next.inj hevent)
    | resetLow =>
      obtain rfl := Host.Outcome.next.inj hevent
      exact .pinReset _ rest hagenda (.inl rfl) rfl
    | resetHigh =>
      obtain rfl := Host.Outcome.next.inj hevent
      rw [State.resetHigh]
      split
      case isTrue => exact .passes rfl rfl
      case isFalse => exact .pinReset _ rest hagenda (.inr rfl) rfl

/-! ### The invariant -/

theorem Block.inv_atReset (out : Vector OutEntry Config.outDepth) : (Block.atReset out).Inv where
  busy_pending := rfl
  latched := nofun
  busy_clear := nofun
  err_code := rfl
  code_legal := by simp
  flags := ⟨rfl, rfl, rfl⟩
  rNum_le := Nat.zero_le _
  rLen_legal := .inl rfl
  count_le := Nat.zero_le _

/-- A field that a success may write keeps a bound that its old and its new value meet
(40_command.md R119). -/
theorem getD_map_of_forall_mem {α β : Type} {P : β → Prop} {o : Option α} {f : α → β} {d : β}
    (hkept : P d) (hwritten : ∀ a ∈ o, P (f a)) : P ((o.map f).getD d) := by
  cases o with
  | none => exact hkept
  | some a => exact hwritten a rfl

section inv
variable {b c : Block} (h : b.Inv)
include h

/-- A success writes legal results and leaves nothing in flight. -/
theorem Block.Inv.completeOk {r : Results} (hr : r.Legal) : (b.completeOk r).Inv where
  busy_pending := rfl
  latched := nofun
  busy_clear := nofun
  err_code := rfl
  code_legal := by simp
  flags := by
    rcases hc : r.cmp with _ | f <;>
      simp only [Block.completeOk, Block.applyResults, hc, Option.map_none, Option.map_some,
        Option.getD_none, Option.getD_some]
    case none => exact h.flags
    case some => exact hr.flags f hc
  rNum_le := by
    refine getD_map_of_forall_mem (P := fun v : Byte => v.toNat ≤ 128) h.rNum_le fun n hn => ?_
    rw [BitVec.toNat_ofNat]
    exact (Nat.mod_le _ _).trans (hr.rNum_le n hn)
  rLen_legal := by
    rcases hlen : r.rLen with _ | len <;>
      simp only [Block.completeOk, Block.applyResults, hlen, Option.getD_none, Option.getD_some]
    case none => exact h.rLen_legal
    case some => exact .inr (hr.rLen_legal len hlen)
  count_le := by
    refine getD_map_of_forall_mem (P := fun v : BitVec 9 => v.toNat ≤ 254) h.count_le
      fun l hl => ?_
    rw [BitVec.toNat_ofNat]
    exact (Nat.mod_le _ _).trans (hr.fits_out l hl).1

/-- A failure writes no result, and its code is one of those R220 lists. -/
theorem Block.Inv.completeErr {k : ErrorKind} (hk : k ≠ .addressConversionError) :
    (b.completeErr k).Inv where
  busy_pending := rfl
  latched := nofun
  busy_clear := nofun
  err_code := (decide_eq_true k.code_ne_zero).symm
  code_legal := by
    cases k with
    | addressConversionError => exact absurd rfl hk
    | invalidAddress | familyMismatch | invalidRange | nonCanonicalMask | illegalCommand
    | invalidPrefixLength => simp [ErrorKind.code]
  flags := h.flags
  rNum_le := h.rNum_le
  rLen_legal := h.rLen_legal
  count_le := h.count_le

/-- With nothing in flight there is nothing latched that an operand write could leave behind. -/
theorem Block.Inv.pending_of_idle (hidle : b.busy = false) : b.pending = none := by
  rw [← Option.not_isSome_iff_eq_none, ← h.busy_pending, hidle]
  exact Bool.false_ne_true

theorem Block.Inv.accept (w : Word) : (b.accept w).Inv where
  busy_pending := rfl
  latched _ hp := (Option.some.inj hp).symm
  busy_clear _ := ⟨rfl, rfl⟩
  err_code := rfl
  code_legal := by simp
  flags := h.flags
  rNum_le := h.rNum_le
  rLen_legal := h.rLen_legal
  count_le := h.count_le

theorem Block.Inv.operands (hidle : b.busy = false) (a : Value) (lenA : Len) (b' : Value)
    (lenB : Len) : Block.Inv { b with a := a, lenA := lenA, b := b', lenB := lenB } where
  busy_pending := h.busy_pending
  latched p hp := by
    rw [h.pending_of_idle hidle] at hp
    exact nomatch hp
  busy_clear := h.busy_clear
  err_code := h.err_code
  code_legal := h.code_legal
  flags := h.flags
  rNum_le := h.rNum_le
  rLen_legal := h.rLen_legal
  count_le := h.count_le

/-- A STATUS write can clear DONE and HOSTERR, and the invariant asks for neither to be 1. -/
theorem Block.Inv.writeStatus (v : Word) : (b.writeStatus v).Inv where
  busy_pending := h.busy_pending
  latched := h.latched
  busy_clear hbusy := by
    obtain ⟨hdone, herr⟩ := h.busy_clear hbusy
    exact ⟨by rw [Block.writeStatus, hdone, Bool.false_and], herr⟩
  err_code := h.err_code
  code_legal := h.code_legal
  flags := h.flags
  rNum_le := h.rNum_le
  rLen_legal := h.rLen_legal
  count_le := h.count_le

theorem Block.Inv.hostMove {x : BusTxn} (hmove : Block.HostMove x b c) : c.Inv := by
  cases hmove with
  | refused => exact { h with }
  | accepted => exact h.accept _
  | operands hidle a lenA b' lenB => exact h.operands hidle a lenA b' lenB
  | status => exact h.writeStatus _
  | softReset => exact Block.inv_atReset _
  | irqEn v => exact { h with }

end inv

/-- Settles O54: every reset value of R260 meets the invariant, and `rst_n` is high. -/
theorem invariantHoldsAtReset : Obligations.InvariantHoldsAtReset :=
  ⟨Block.inv_atReset _, nofun⟩

/-- Settles O55: each move keeps the block's invariant; the block changes with `rst_n` low only by a
reset. -/
theorem invariantKeptByStep : Obligations.InvariantKeptByStep := by
  rintro s t ⟨hinv, hlow⟩ hstep
  cases step_moves hstep with
  | passes hblk hrst =>
    rw [State.Inv, hblk, hrst]
    exact ⟨hinv, hlow⟩
  | completesOk p r hp hlegal hblk hrst =>
    rw [State.Inv, hblk, hrst]
    exact ⟨hinv.completeOk hlegal, nofun⟩
  | completesErr p k hp hk hblk hrst =>
    rw [State.Inv, hblk, hrst]
    exact ⟨hinv.completeErr hk, nofun⟩
  | host e rest x hagenda htxn hmove hrst =>
    rw [State.Inv, hrst]
    exact ⟨hinv.hostMove hmove, nofun⟩
  | pinReset e rest hagenda he hblk =>
    rw [State.Inv, hblk]
    exact ⟨Block.inv_atReset _, fun _ => rfl⟩

/-! ### The tiling of OUT -/

/-- With COUNT 0 the decomposition is empty, and the empty list tiles an empty interval. -/
theorem Block.outTiles_atReset (out : Vector OutEntry Config.outDepth) :
    (Block.atReset out).OutTiles := by
  refine ⟨32, 0, 0, .inl rfl, ?_⟩
  rw [Block.decomposition, Block.atReset_count]
  exact rfl

section outTiles
variable {b c : Block} (h : b.OutTiles)
include h

theorem Block.OutTiles.of_eq (hcount : c.count = b.count) (hout : c.out = b.out) : c.OutTiles := by
  rw [Block.OutTiles, Block.decomposition, hcount, hout]
  exact h

/-- A success that writes OUT writes a tiling, and any other keeps OUT and COUNT. -/
theorem Block.OutTiles.completeOk {r : Results} (hr : r.Legal) : (b.completeOk r).OutTiles := by
  rcases hlist : r.out with _ | l
  case none =>
    refine h.of_eq ?_ ?_ <;>
      simp only [Block.completeOk, Block.applyResults, hlist, Option.map_none, Option.getD_none]
  case some =>
    obtain ⟨hlength, hfit⟩ := hr.fits_out l hlist
    have hread : (b.completeOk r).decomposition = l :=
      decomposition_overlay _ l (hlength.trans (by decide)) hfit (b.completeOk_count hlist)
        (b.completeOk_out hlist)
    rw [Block.OutTiles, hread]
    exact hr.tiles_out l hlist

theorem Block.OutTiles.hostMove {x : BusTxn} (hmove : Block.HostMove x b c) : c.OutTiles := by
  cases hmove with
  | refused | accepted | operands | status | irqEn => exact h.of_eq rfl rfl
  | softReset => exact Block.outTiles_atReset _

end outTiles

/-- Settles O56: OUT and COUNT are written together, by a DECOMPOSE that writes a tiling or by a reset that
writes COUNT 0. -/
theorem outputStaysTiled : Obligations.OutputStaysTiled := by
  refine ⟨Block.outTiles_atReset _, fun s t h hstep => ?_⟩
  cases step_moves hstep with
  | passes hblk hrst => exact hblk ▸ h
  | completesOk p r hp hlegal hblk hrst => exact hblk ▸ h.completeOk hlegal
  | completesErr p k hp hk hblk hrst => exact hblk ▸ h.of_eq rfl rfl
  | host e rest x hagenda htxn hmove hrst => exact h.hostMove hmove
  | pinReset e rest hagenda he hblk => exact hblk ▸ Block.outTiles_atReset _

/-! ### Who writes what -/

theorem Block.sameResults_refl (b : Block) : b.SameResults b :=
  ⟨rfl, rfl, rfl, rfl, rfl, rfl, rfl, rfl, rfl⟩

theorem Block.sameOperands_refl (b : Block) : b.SameOperands b := ⟨rfl, rfl, rfl, rfl, rfl⟩

section hostMove
variable {x : BusTxn} {b c : Block} (hmove : Block.HostMove x b c)
include hmove

/-- The host writes no result but by a soft reset (10_state.md R22). -/
theorem Block.HostMove.sameResults (hsoft : x.softResets = false) : c.SameResults b := by
  cases hmove with
  | refused | accepted | operands | status | irqEn =>
    exact ⟨rfl, rfl, rfl, rfl, rfl, rfl, rfl, rfl, rfl⟩
  | softReset h => exact absurd (h.symm.trans hsoft) (by decide)

/-- The host can clear DONE and never sets it (10_state.md R28). -/
theorem Block.HostMove.done_eq_false (hdone : b.done = false) : c.done = false := by
  cases hmove with
  | refused | operands | irqEn => exact hdone
  | accepted | softReset => rfl
  | status => rw [Block.writeStatus, hdone, Bool.false_and]

end hostMove

/-- An event that puts a transaction on the port is not the engine's turn. -/
theorem Event.ne_engineTurn_of_txn {e : Event} {x : BusTxn} (h : e.txn = some x) :
    e ≠ .engineTurn := by
  rintro rfl
  exact nomatch h

/-- Settles O51: a completion keeps the operands, a transaction keeps the results and DONE unless it is a
soft reset, and a reset by the pin is an event that is not the engine's. -/
theorem engineWritesResultsHostWritesOperands :
    Obligations.EngineWritesResultsHostWritesOperands := by
  intro s t hstep
  cases step_moves hstep with
  | passes hblk hrst =>
    rw [hblk]
    exact ⟨fun h => absurd s.blk.sameResults_refl h, fun h h' => absurd (h.symm.trans h') (by decide),
      fun h => absurd s.blk.sameOperands_refl h⟩
  | completesOk p r hp hlegal hblk hrst =>
    have hsame := s.blk.completeOk_sameOperands r
    rw [hblk, hp]
    exact ⟨fun _ => .inl ⟨rfl, rfl, rfl, hsame⟩, fun _ _ => ⟨rfl, rfl, hsame⟩, fun h => absurd hsame h⟩
  | completesErr p k hp hk hblk hrst =>
    have hsame := s.blk.completeErr_sameOperands k
    rw [hblk, hp]
    exact ⟨fun _ => .inl ⟨rfl, rfl, rfl, hsame⟩, fun _ _ => ⟨rfl, rfl, hsame⟩, fun h => absurd hsame h⟩
  | host e rest x hagenda htxn hmove hrst =>
    refine ⟨fun hresults => .inr ⟨e, rest, hagenda, .inl ?_⟩, fun hdone hdone' => ?_,
      fun _ => ⟨e, rest, hagenda, Event.ne_engineTurn_of_txn htxn⟩⟩
    · rcases hsoft : x.softResets with _ | _
      case false => exact absurd (hmove.sameResults hsoft) hresults
      case true => simp [Event.abandons, htxn, hsoft]
    · exact absurd ((hmove.done_eq_false hdone).symm.trans hdone') (by decide)
  | pinReset e rest hagenda he hblk =>
    refine ⟨fun _ => .inr ⟨e, rest, hagenda, he.imp_left ?_⟩, fun _ hdone => ?_,
      fun _ => ⟨e, rest, hagenda, ?_⟩⟩
    · rintro rfl
      rfl
    · rw [hblk] at hdone
      exact nomatch hdone
    · rcases he with rfl | rfl <;> exact nofun

end Sys2Proof.Machine
end

section
/-! PROOFS. Whose move a step is, and what runs of a command in flight come to: idleness, the next turn of
the engine, a write that races it, and the reset pin (spec/20_memory.md R60, R67, R73; spec/40_command.md
R112, R113; spec/70_reset_and_hazards.md R260 to R273). -/

namespace Sys2Proof.Machine

/-! ### One step by what is next on the agenda -/

section step
variable {s : State}

theorem step_of_nil (h : s.agenda = []) : step s = s.engineTurn := by
  rw [step, h]

theorem step_of_cons {e : Event} {rest : List Event} (h : s.agenda = e :: rest) :
    step s = ({ s with agenda := rest } : State).perform e := by
  rw [step, h]

/-- An illegal word in flight completes with code 6 (30_encoding.md R93). -/
theorem State.engineTurn_illegal_afterError {p : Pending} {r : IllegalWord} (hr : s.rstN = true)
    (hp : s.blk.pending = some p) (hd : decode p.word = .error r) :
    s.engineTurn = .next (s.afterError 6) :=
  State.engineTurn_illegal hr hp hd

end step

/-- A command word is one 32-bit word, so the table's bits are its bits (30_encoding.md R90). -/
theorem tableWord_toNat (w : Word) : tableWord 32 w.toNat = w := by
  rw [tableWord, Nat.mod_eq_of_lt w.isLt, BitVec.ofNat_toNat, BitVec.setWidth_eq]

/-- Settles O7: a step is the engine's turn or the event that is next, and the engine's turn is the
command its word decodes to; a placed word is in flight by definition. -/
theorem stepRunsDecodedCommand : Obligations.StepRunsDecodedCommand := by
  refine ⟨fun s p i hr hp hdecode => ⟨fun hnil => ?_, fun rest hcons => ?_⟩,
    fun s p r hr hp hdecode => ⟨fun hnil => ?_, fun rest hcons => ?_⟩,
    fun s => ⟨step_of_nil, fun rest => step_of_cons, fun x rest => step_of_cons⟩,
    fun s w i hdecode hnil => ?placed⟩
  · exact (step_of_nil hnil).trans (State.engineTurn_legal hr hp hdecode)
  · exact (step_of_cons hcons).trans
      (State.engineTurn_legal (s := { s with agenda := rest }) hr hp hdecode)
  · exact (step_of_nil hnil).trans (State.engineTurn_illegal_afterError hr hp hdecode)
  · exact (step_of_cons hcons).trans
      (State.engineTurn_illegal_afterError (s := { s with agenda := rest }) hr hp hdecode)
  case placed =>
    rw [State.withFetchWord, tableWord_toNat]
    have hagenda : (s.placeCommand w).agenda = [] := by rw [State.placeCommand, hnil]
    exact ⟨(step_of_nil hagenda).trans (State.engineTurn_legal rfl rfl hdecode), rfl⟩

/-- Settles O9: the step is the engine's turn, which passes. -/
theorem idleKeepsState : Obligations.IdleKeepsState := fun _ hnil hp =>
  (step_of_nil hnil).trans (State.engineTurn_passes (.inr hp))

/-- Settles O46: the fields are R260's values, and the step is one of O9. -/
theorem resetIsIdle : Obligations.ResetIsIdle :=
  ⟨rfl, rfl, rfl, rfl, rfl, rfl, rfl, idleKeepsState _ rfl rfl⟩

/-! ### The reset pin -/

theorem State.resetHigh_of_low {s : State} (hr : s.rstN = false) :
    s.resetHigh = { s.hardReset with rstN := true } := by
  rw [State.resetHigh, hr]
  rfl

theorem State.resetHigh_of_high {s : State} (hr : s.rstN = true) : s.resetHigh = s := by
  rw [State.resetHigh, hr]
  rfl

/-- Settles O45: assertion and release are the hard reset, and while the pin is low the engine's turn
passes and an access does not reach the block. -/
theorem hardwareResetState : Obligations.HardwareResetState := by
  refine ⟨fun s e rest hagenda he => ?pin, fun s hr => State.engineTurn_passes (.inl hr),
    fun s x hr hsel => ⟨fun hwe => ?write, fun hwe => ?read⟩⟩
  case pin =>
    rw [step_of_cons hagenda]
    rcases he with rfl | ⟨rfl, hr⟩
    case inl => exact ⟨_, launchOut s.draws, rfl, rfl, rfl, rfl, rfl⟩
    case inr =>
      have hhigh := State.resetHigh_of_low (s := { s with agenda := rest }) hr
      exact ⟨_, launchOut s.draws, congrArg _ hhigh, rfl, rfl, rfl, rfl⟩
  case write => simp [State.access, hr, hsel, hwe]
  case read =>
    have hfree : s.access x = s.answerFree := by simp [State.access, hr, hsel, hwe]
    rw [hfree]
    exact ⟨rfl, rfl⟩

/-! ### A command in flight up to the engine's next turn -/

/-- What a transaction other than a soft reset leaves of a command in flight: all of it
(20_memory.md R67, 70_reset_and_hazards.md R273). -/
theorem Block.HostMove.inFlight {x : BusTxn} {b c : Block} (hmove : Block.HostMove x b c)
    (hsoft : x.softResets = false) (hbusy : b.busy = true) :
    c.busy = true ∧ c.pending = b.pending := by
  cases hmove with
  | refused | status | irqEn => exact ⟨hbusy, rfl⟩
  | accepted hidle | operands hidle => exact absurd (hidle.symm.trans hbusy) (by decide)
  | softReset h => exact absurd (h.symm.trans hsoft) (by decide)

/-- The block has a command in flight and is not held in reset. -/
structure State.InFlight (s : State) (p : Pending) : Prop where
  rstN : s.rstN = true
  busy : s.blk.busy = true
  pending : s.blk.pending = some p

/-- The command has completed (40_command.md R113). -/
def Block.Completed (b : Block) : Prop := b.busy = false ∧ b.done = true ∧ b.pending = none

section inFlight
variable {s : State} {p : Pending} (h : s.InFlight p)
include h

theorem State.InFlight.engineTurn : ∃ t, s.engineTurn = .next t ∧ t.blk.Completed := by
  rcases p.completion with ⟨r, -, hturn⟩ | ⟨k, -, hturn⟩
  · exact ⟨_, hturn s h.rstN h.pending, rfl, rfl, rfl⟩
  · exact ⟨_, hturn s h.rstN h.pending, rfl, rfl, rfl⟩

theorem State.InFlight.access {x : BusTxn} (hsoft : x.softResets = false) :
    (s.access x).InFlight p := by
  have hrst := (State.access_rstN x).trans h.rstN
  rcases State.access_hostMove (s := s) x with hsame | hmove
  case inl => exact ⟨hrst, hsame ▸ h.busy, hsame ▸ h.pending⟩
  case inr =>
    obtain ⟨hbusy, hpending⟩ := hmove.inFlight hsoft h.busy
    exact ⟨hrst, hbusy, hpending.trans h.pending⟩

/-- An event that is neither the engine's turn nor a reset leaves the command in flight, and takes
nothing more off the agenda. -/
theorem State.InFlight.perform {e : Event} (hkeeps : e.abandons = false) (hturn : e ≠ .engineTurn) :
    ∃ t, s.perform e = .next t ∧ t.InFlight p ∧ t.agenda = s.agenda := by
  cases e with
  | engineTurn => exact absurd rfl hturn
  | port x => exact ⟨_, rfl, h.access (by simpa [Event.abandons, Event.txn] using hkeeps),
      State.access_agenda x⟩
  | system addr we be v => exact ⟨_, rfl,
      h.access (by simpa [Event.abandons, Event.txn] using hkeeps), State.access_agenda _⟩
  | resetLow => exact nomatch hkeeps
  | resetHigh => exact ⟨_, rfl, (State.resetHigh_of_high h.rstN).symm ▸ h,
      congrArg _ (State.resetHigh_of_high h.rstN)⟩

end inFlight

/-! ### Runs -/

theorem core_run_succ {s t : State} (h : step s = .next t) (n : Nat) :
    core.run (n + 1) s = core.run n t := by
  have hstep : core.step s = .next t := h
  simp only [Host.Core.run, hstep]

theorem core_run_one {s t : State} (h : step s = .next t) : core.run 1 s = .next t :=
  core_run_succ h 0

theorem latency_pos (es : List Event) : 0 < latency es := by
  cases es with
  | nil => exact Nat.one_pos
  | cons e rest => cases e <;> exact Nat.succ_pos _

theorem latency_cons {e : Event} (he : e ≠ .engineTurn) (rest : List Event) :
    latency (e :: rest) = latency rest + 1 := by
  cases e with
  | engineTurn => exact absurd rfl he
  | port | system | resetLow | resetHigh => rfl

/-- The command completes at the engine's next turn, by induction on the events before it. -/
theorem State.InFlight.run_latency {p : Pending} (es : List Event) : ∀ {s : State}, s.InFlight p →
    s.agenda = es → (∀ e ∈ es.take (latency es - 1), e.abandons = false) →
    ∃ t, core.run (latency es) s = .next t ∧ t.blk.Completed := by
  induction es with
  | nil =>
    intro s h hagenda _
    obtain ⟨t, hturn, hdone⟩ := h.engineTurn
    exact ⟨t, core_run_one ((step_of_nil hagenda).trans hturn), hdone⟩
  | cons e rest ih =>
    intro s h hagenda hkeeps
    have hrest : State.InFlight { s with agenda := rest } p := ⟨h.rstN, h.busy, h.pending⟩
    by_cases he : e = .engineTurn
    case pos =>
      subst he
      obtain ⟨t, hturn, hdone⟩ := hrest.engineTurn
      exact ⟨t, core_run_one ((step_of_cons hagenda).trans hturn), hdone⟩
    case neg =>
      obtain ⟨n, hn⟩ := Nat.exists_eq_add_of_lt (latency_pos rest)
      have hlatency := latency_cons he rest
      rw [hlatency, Nat.add_sub_cancel, hn, Nat.zero_add, List.take_succ_cons,
        List.forall_mem_cons] at hkeeps
      obtain ⟨u, hevent, hu, hagenda'⟩ := hrest.perform hkeeps.1 he
      rw [hlatency, core_run_succ ((step_of_cons hagenda).trans hevent)]
      refine ih hu hagenda' ?_
      rw [hn, Nat.zero_add, Nat.add_sub_cancel]
      exact hkeeps.2

/-- Settles O52: the events before the engine's next turn leave the command in flight, and that turn
completes it. -/
theorem acceptedCommandCompletes : Obligations.AcceptedCommandCompletes :=
  fun _ _ hr hbusy hp hkeeps => State.InFlight.run_latency _ ⟨hr, hbusy, hp⟩ rfl hkeeps

/-! ### A write that races the engine -/

theorem Block.writeReg_aW_busy {b : Block} (hb : b.busy = true) (k : Fin 4) (v : Word) :
    b.writeReg (.aW k) v = b.refuse := by
  rw [Block.writeReg, Block.whenIdle_busy hb]

/-- Both orders of a write of A_W0 and a completion `f` that leaves the block idle: the write is refused
and then the command completes, or the command completes and then the word is stored
(20_memory.md R66, R67). -/
theorem operandRace_runs {s : State} {p : Pending} {f : Block → Block} (h : s.InFlight p)
    (hturn : ∀ s : State, s.rstN = true → s.blk.pending = some p →
      s.engineTurn = .next (s.withBlk (f s.blk)))
    (hidle : (f s.blk).busy = false) (v : Word) :
    core.run 2 { s with agenda := [.port (writeTxn 0x020 v), .engineTurn] } =
      .next ({ s with blk := f s.blk.refuse, agenda := [] }) ∧
    core.run 2 { s with agenda := [.engineTurn, .port (writeTxn 0x020 v)] } =
      .next ({ s with
        blk := { f s.blk with a := replaceWord (f s.blk).a 0 v }, agenda := [] }) := by
  constructor
  case left =>
    have hwrite : step { s with agenda := [.port (writeTxn 0x020 v), .engineTurn] } =
        .next { s with blk := s.blk.refuse, agenda := [.engineTurn] } :=
      (step_of_cons rfl).trans (congrArg _ (State.access_writeTxn_offset
        (s := { s with agenda := [.engineTurn] }) h.rstN (.aW 0) (Block.writeReg_aW_busy h.busy 0 v)))
    have hengine : step { s with blk := s.blk.refuse, agenda := [.engineTurn] } =
        .next { s with blk := f s.blk.refuse, agenda := [] } :=
      hturn { s with blk := s.blk.refuse, agenda := [] } h.rstN h.pending
    rw [core_run_succ hwrite, core_run_one hengine]
  case right =>
    have hengine : step { s with agenda := [.engineTurn, .port (writeTxn 0x020 v)] } =
        .next { s with blk := f s.blk, agenda := [.port (writeTxn 0x020 v)] } :=
      hturn { s with agenda := [.port (writeTxn 0x020 v)] } h.rstN h.pending
    have hwrite : step { s with blk := f s.blk, agenda := [.port (writeTxn 0x020 v)] } =
        .next { s with blk := { f s.blk with a := replaceWord (f s.blk).a 0 v }, agenda := [] } :=
      (step_of_cons rfl).trans (congrArg _ (State.access_writeTxn_offset
        (s := { s with blk := f s.blk, agenda := [] }) h.rstN (.aW 0)
        (Block.writeReg_aW_idle hidle v 0)))
    rw [core_run_succ hengine, core_run_one hwrite]

/-- Settles O53: the completion is the same one in both orders, since it is fixed by the latched copy. -/
theorem operandWriteRacesCompletion : Obligations.OperandWriteRacesCompletion := by
  intro s p v hr hbusy hp
  rcases p.completion with ⟨r, -, hturn⟩ | ⟨k, -, hturn⟩
  case inl =>
    obtain ⟨hfirst, hlast⟩ := operandRace_runs (f := (·.completeOk r)) ⟨hr, hbusy, hp⟩ hturn rfl v
    exact ⟨_, _, hfirst, hlast, rfl, rfl, wordOf_replaceWord_same _ 0 v, rfl,
      ⟨rfl, rfl, rfl, rfl, rfl, rfl, rfl, rfl, rfl⟩, rfl, rfl, rfl⟩
  case inr =>
    obtain ⟨hfirst, hlast⟩ := operandRace_runs (f := (·.completeErr k)) ⟨hr, hbusy, hp⟩ hturn rfl v
    exact ⟨_, _, hfirst, hlast, rfl, rfl, wordOf_replaceWord_same _ 0 v, rfl,
      ⟨rfl, rfl, rfl, rfl, rfl, rfl, rfl, rfl, rfl⟩, rfl, rfl, rfl⟩

end Sys2Proof.Machine
end

section
/-! PROOFS. The host port's reads: the word each register reads as, when it is unspecified, and the
decoding of an offset and of a system address (spec/10_state.md R22, R23, R37; spec/20_memory.md R62, R70 to
R72). -/

namespace Sys2Proof.Machine

/-! ### The register map -/

/-- Every word-aligned offset that is not reserved is a register's (10_state.md R23). -/
theorem Reg.exists_ofOffset {off : BitVec 14}
    (h : off.toNat < 0x060 ∨ (0x1000 ≤ off.toNat ∧ off.toNat < 0x3000)) :
    ∃ r, Reg.ofOffset off = some r := by
  simp only [Reg.ofOffset]
  split
  case isTrue hlow => split <;> exact ⟨_, rfl⟩
  case isFalse hlow =>
    split_ifs with hA hB hR0 hR1 hgap hout
    case pos | pos | pos | pos => exact ⟨_, rfl⟩
    case pos => omega
    case pos => exact ⟨_, rfl⟩
    case neg => omega

/-- Settles O47: the map from offsets to registers is the inverse of the offsets. -/
theorem registerMapIsOneToOne : Obligations.RegisterMapIsOneToOne := by
  refine ⟨fun r r' heq => ?injective, fun off haligned => ⟨?unreserved, fun hoff => ?covered⟩⟩
  case injective =>
    have hmap := Reg.ofOffset_offset r
    rw [heq, Reg.ofOffset_offset] at hmap
    exact (Option.some.inj hmap).symm
  case unreserved =>
    rintro ⟨r, rfl⟩
    exact r.offset_toNat_unreserved
  case covered =>
    obtain ⟨r, hr⟩ := Reg.exists_ofOffset hoff
    exact ⟨r, Reg.offset_eq_of_ofOffset haligned hr⟩

/-! ### A transaction at a system address -/

/-- A transaction that is not addressed to the block does nothing (20_memory.md R61). -/
theorem State.access_of_not_sel (s : State) {x : BusTxn} (h : x.sel = false) : s.access x = s := by
  rw [State.access, h]
  rfl

/-- Outside the window the system does not select the block (20_memory.md R62). -/
theorem systemTxn_sel_of_outside {addr : Nat}
    (h : addr < Config.base ∨ Config.base + 0x4000 ≤ addr) (we : Bool) (be : BitVec 4) (v : Word) :
    (systemTxn addr we be v).sel = false := by
  rw [systemTxn, decide_eq_false_iff_not, Config.windowSize]
  omega

/-- Inside the window the transaction is the port's at the offset from BASE (20_memory.md R62). -/
theorem systemTxn_base_add (off : BitVec 14) (we : Bool) (be : BitVec 4) (v : Word) :
    systemTxn (Config.base + off.toNat) we be v =
      { sel := true, we := we, off := off, be := be, wdata := v } := by
  have hoff := off.isLt
  have hsel : Config.base ≤ Config.base + off.toNat ∧
      Config.base + off.toNat < Config.base + Config.windowSize := by
    rw [Config.windowSize]
    omega
  rw [systemTxn, decide_eq_true hsel, Nat.add_sub_cancel_left, BitVec.ofNat_toNat,
    BitVec.setWidth_eq]

/-- Settles O48: the step is the access the system puts on the port, which is none outside the window. -/
theorem systemAddressDecodes : Obligations.SystemAddressDecodes := by
  intro s rest addr we be v hagenda
  rw [step_of_cons hagenda, State.perform]
  refine ⟨fun houtside => ?outside, fun off haddr => ?inside⟩
  case outside => rw [State.access_of_not_sel _ (systemTxn_sel_of_outside houtside we be v)]
  case inside => rw [haddr, systemTxn_base_add]

/-! ### Reads -/

section read
variable {s : State} {x : BusTxn} {r : Reg}

/-- A read that reaches a register returns its state value, or an unspecified word where it is a result
register's and the block is busy (20_memory.md R70, R72). -/
theorem State.access_read_of_target (hr : s.rstN = true) (hsel : x.sel = true) (hwe : x.we = false)
    (h : target x.off x.be = some r) : s.access x =
      if s.blk.busy && r.isResult then s.answerFree else s.answer (s.blk.readReg r) := by
  simp [State.access, State.hostRead, hr, hsel, hwe, h]

theorem State.access_read_stateValue (hr : s.rstN = true) (hsel : x.sel = true) (hwe : x.we = false)
    (h : target x.off x.be = some r) (hstate : s.blk.busy = false ∨ r.isResult = false) :
    s.access x = s.answer (s.blk.readReg r) := by
  rw [State.access_read_of_target hr hsel hwe h, if_neg]
  rw [Bool.and_eq_true]
  rintro ⟨hbusy, hresult⟩
  simp [hbusy, hresult] at hstate

theorem State.access_read_free (hr : s.rstN = true) (hsel : x.sel = true) (hwe : x.we = false)
    (h : target x.off x.be = some r) (hbusy : s.blk.busy = true) (hresult : r.isResult = true) :
    s.access x = s.answerFree := by
  rw [State.access_read_of_target hr hsel hwe h, hbusy, hresult]
  rfl

/-- An access that is not refused reaches a register (20_memory.md R63, R65). -/
theorem exists_target_of_not_refused {busy : Bool} (h : ¬ Refused busy x) :
    ∃ r, target x.off x.be = some r := by
  simp only [Refused, not_or] at h
  obtain ⟨haligned, hbe, hgap, hhigh, -⟩ := h
  have hoff := x.off.isLt
  have hadmitted : admitted x.off x.be = true := by
    rw [admitted, Bool.and_eq_true, beq_iff_eq, beq_iff_eq]
    exact ⟨not_not.mp haligned, not_not.mp hbe⟩
  rw [target, if_pos hadmitted]
  exact Reg.exists_ofOffset (by omega)

end read

/-- Settles O39: a read that reaches a register adds to the words returned alone, and while idle the word
is the register's, which the first of two reads does not change. -/
theorem readsHaveNoSideEffect : Obligations.ReadsHaveNoSideEffect := by
  intro s x hr hsel hwe hx
  obtain ⟨r, htarget⟩ := exists_target_of_not_refused hx
  have hread := State.access_read_of_target hr hsel hwe htarget
  refine ⟨?_, State.access_rstN x, State.access_agenda x, fun hidle => ?idempotent⟩
  · rw [hread]
    split <;> rfl
  case idempotent =>
    have hfirst := State.access_read_stateValue hr hsel hwe htarget (.inl hidle)
    have hsecond := State.access_read_stateValue (s := s.answer (s.blk.readReg r)) hr hsel hwe htarget
      (.inl hidle)
    rw [hfirst, hsecond]
    exact ⟨_, rfl, rfl⟩

/-- The offsets R72 lists are those of result registers. -/
theorem Reg.isResult_of_resultOffset {r : Reg} (h : ResultOffset r.offset.toNat) :
    r.isResult = true := by
  cases r with
  | rInfo | count | r0W | r1W | outAddr | outBits | outReserved => rfl
  | id | ctrl | cmd | status | lenA | lenB => simp [ResultOffset, Reg.offset] at h
  | aW | bW =>
    simp only [ResultOffset, Reg.offset, BitVec.toNat_ofNat] at h
    omega

/-- The registers whose reads are the same idle and busy (20_memory.md R72). -/
theorem Reg.isResult_eq_false {r : Reg}
    (h : r ∈ [.id, .ctrl, .cmd, .status, .lenA, .lenB] ∨ ∃ k, r = .aW k ∨ r = .bW k) :
    r.isResult = false := by
  rcases h with hmem | ⟨k, rfl | rfl⟩
  case inl =>
    simp only [List.mem_cons, List.not_mem_nil, or_false] at hmem
    rcases hmem with rfl | rfl | rfl | rfl | rfl | rfl <;> rfl
  case inr.inl | inr.inr => rfl

/-- Settles O40: a full-word read at a register's offset reaches it, and BUSY and the kind of the register
decide between its state value and an unspecified word. -/
theorem readsReturnStateOrFreeValue : Obligations.ReadsReturnStateOrFreeValue := by
  intro s r hr
  have htarget : target (readTxn r.offset).off (readTxn r.offset).be = some r := target_offset r
  refine ⟨fun hbusy hoff => ?free, fun hbusy hreg => ?operand, fun hidle => ?idle⟩
  case free => exact State.access_read_free hr rfl rfl htarget hbusy (Reg.isResult_of_resultOffset hoff)
  case operand =>
    exact State.access_read_stateValue hr rfl rfl htarget (.inr (Reg.isResult_eq_false hreg))
  case idle => exact State.access_read_stateValue hr rfl rfl htarget (.inl hidle)

/-! ### The words the registers read as -/

theorem append_toNat {m n : Nat} (x : BitVec m) (y : BitVec n) :
    (x ++ y).toNat = 2 ^ n * x.toNat + y.toNat := by
  rw [BitVec.toNat_append, ← Nat.shiftLeft_add_eq_or_of_lt y.isLt, Nat.shiftLeft_eq, mul_comm]

/-- Word `k` of a value is its bits `32k+31 : 32k` (10_state.md R23). -/
theorem wordOf_toNat (v : Value) (k : Fin 4) :
    (wordOf v k).toNat = v.toNat / 2 ^ (32 * k.val) % 2 ^ 32 := by
  rw [wordOf, BitVec.extractLsb'_toNat, Nat.shiftRight_eq_div_pow]

section words
variable (b : Block)

theorem Block.ctrlWord_toNat : b.ctrlWord.toNat = b.irqEn.toNat := by
  rw [Block.ctrlWord, append_toNat, BitVec.toNat_ofBool]
  simp

theorem Block.statusWord_toNat : b.statusWord.toNat =
    b.busy.toNat + 2 * b.done.toNat + 4 * b.err.toNat + 8 * b.hostErr.toNat +
      256 * b.errCode.toNat := by
  simp only [Block.statusWord, append_toNat, BitVec.toNat_ofBool, BitVec.toNat_zero]
  ring

theorem Block.infoWord_toNat : b.infoWord.toNat =
    b.rNum.toNat + 256 * b.rLen.toNat + 65536 * b.cmpLt.toNat + 131072 * b.cmpEq.toNat +
      262144 * b.cmpGt.toNat := by
  simp only [Block.infoWord, append_toNat, BitVec.toNat_ofBool, BitVec.toNat_zero]
  ring

end words

/-- Settles O41: a word made of fields has each of them at its place value, a field of at most 32 bits reads
as itself, and a word of a value is its 32 bits. -/
theorem registerWordsHoldFields : Obligations.RegisterWordsHoldFields := by
  intro b
  refine ⟨rfl, rfl, b.ctrlWord_toNat, b.statusWord_toNat, ?lenA, ?lenB, b.infoWord_toNat, ?count,
    fun k => ⟨wordOf_toNat b.a k, wordOf_toNat b.b k, wordOf_toNat b.r0 k, wordOf_toNat b.r1 k⟩,
    fun i k _ => ⟨wordOf_toNat b.out[i].addr k, ?bits, rfl⟩⟩
  case lenA | lenB | count | bits => exact BitVec.toNat_setWidth_of_le (by decide)

end Sys2Proof.Machine
end

section
/-! PROOFS. Laws between the commands: masks and lengths, the commands on a prefix, the two measures of
alignment, and the errors of DECOMPOSE (spec/42_mask.md R142; spec/43_expand.md R161 to R167;
spec/44_decompose.md R180, R186). -/

namespace Sys2Proof.Machine

/-! ### Reading a result back -/

/-- The state after a success is fixed by the results of the effect (40_command.md R113, R119). -/
theorem eq_afterOk_of_exec {i : Instr} {s t : State} {p : Pending} {r : Results}
    (hp : s.blk.pending = some p) (heffect : Instr.effect i p = .ok r) (h : exec i s = .next t) :
    t = s.afterOk (·.applyResults r) :=
  (Host.Outcome.next.inj ((exec_of_effect_ok hp heffect).symm.trans h)).symm

section readBack
variable {len : Len} (hlen : len = 4#5 ∨ len = 16#5)
include hlen

/-- An address of a family fits R0 and R1 (10_state.md R31). -/
theorem addr_toNat {v : Nat} (hv : v < 2 ^ (8 * len.toNat)) : (BitVec.ofNat 128 v).toNat = v := by
  rw [BitVec.toNat_ofNat]
  exact Nat.mod_eq_of_lt (hv.trans_le (Nat.pow_le_pow_right Nat.two_pos (width_le hlen)))

/-- A prefix length of a family fits RNUM (10_state.md R32). -/
theorem length_toNat {n : Nat} (hn : n ≤ 8 * len.toNat) : (BitVec.ofNat 8 n).toNat = n := by
  have hwidth := width_le hlen
  rw [BitVec.toNat_ofNat]
  exact Nat.mod_eq_of_lt (by omega)

end readBack

/-! ### Masks -/

/-- Settles O33: R0 is a mask of the family, and MASK2PLEN measures masks. -/
theorem maskRoundTrip : Obligations.MaskRoundTrip := by
  intro plen n s t s' p p' hp hlen hplen hexec hp' ha hlenA
  obtain rfl := eq_afterOk_of_exec (i := .plen2mask plen) hp (plen2maskEffect_ok hlen hplen) hexec
  have hmask : p'.a.toNat = mask (8 * p.lenA.toNat) plen := ha ▸ addr_toNat hlen mask_lt
  rw [← hlenA] at hlen hplen hmask
  have hvalid : ValidAddr p'.a p'.lenA := ⟨hlen, hmask ▸ mask_lt⟩
  refine ⟨_, exec_of_effect_ok (i := .mask2plen n) hp'
    (mask2plenEffect_of_mask hvalid hplen (hmask.trans mask_eq)), rfl, length_toNat hlen hplen, hlenA⟩

/-- The host mask is the complement of the mask within W bits (00_scope.md R12). -/
theorem complement_mask (W plen : Nat) : 2 ^ W - 1 - mask W plen = hostMask W plen := by
  have hle : ones (W - plen) ≤ ones W := Nat.le_of_lt_succ ((hostMask_lt W plen).trans_eq
    (ones_succ W).symm)
  rw [mask, hostMask, ← ones]
  exact Nat.sub_sub_self hle

/-! ### The commands on a prefix -/

section prefixResults
variable {s t : State} {p : Pending} {plen : Nat} (hp : s.blk.pending = some p)
  (ha : ValidAddr p.a p.lenA) (hplen : plen ≤ 8 * p.lenA.toNat)
include hp ha hplen

theorem expand_r0_toNat (h : exec (.expand plen) s = .next t) :
    t.blk.r0.toNat = p.a.toNat / 2 ^ (8 * p.lenA.toNat - plen) * 2 ^ (8 * p.lenA.toNat - plen) := by
  obtain rfl := eq_afterOk_of_exec hp (expandEffect_ok ha hplen) h
  exact (addr_toNat ha.1 (canon_lt ha.2 plen)).trans (canon_eq ha.2 hplen)

theorem expand_r1_toNat (h : exec (.expand plen) s = .next t) :
    t.blk.r1.toNat =
      canon p.a.toNat (8 * p.lenA.toNat) plen ||| hostMask (8 * p.lenA.toNat) plen := by
  obtain rfl := eq_afterOk_of_exec hp (expandEffect_ok ha hplen) h
  exact addr_toNat ha.1 (Nat.or_lt_two_pow (canon_lt ha.2 plen) (hostMask_lt _ plen))

theorem canon_r0_toNat (h : exec (.canon plen) s = .next t) :
    t.blk.r0.toNat = canon p.a.toNat (8 * p.lenA.toNat) plen := by
  obtain rfl := eq_afterOk_of_exec hp (canonEffect_ok ha hplen) h
  exact addr_toNat ha.1 (canon_lt ha.2 plen)

end prefixResults

/-- Settles O34: all four compute from `canon` and `mask` of the same operands, and the host mask EXPAND
sets is the complement of the mask. -/
theorem expandCanonNetmaskAgree : Obligations.ExpandCanonNetmaskAgree := by
  intro plen s p hp ha hplen
  have hexpand := exec_of_effect_ok hp (expandEffect_ok ha hplen)
  have hr0 := addr_toNat ha.1 (canon_lt ha.2 plen)
  have hr1 := expand_r1_toNat hp ha hplen hexpand
  have hmask := addr_toNat ha.1 (mask_lt (p := plen))
  refine ⟨_, _, _, _, hexpand, exec_of_effect_ok hp (canonEffect_ok ha hplen),
    exec_of_effect_ok hp (netmaskEffect_ok ha hplen),
    exec_of_effect_ok (i := .plen2mask plen) hp (plen2maskEffect_ok ha.1 hplen), rfl, rfl, ?_⟩
  calc _ = _ := hr1
    _ = canon p.a.toNat (8 * p.lenA.toNat) plen |||
        (2 ^ (8 * p.lenA.toNat) - 1 - mask (8 * p.lenA.toNat) plen) := by rw [complement_mask]
    _ = _ := congrArg₂ (· ||| ·) hr0.symm (congrArg _ hmask.symm)

/-- Settles O35: R0 and R1 are the ends of the aligned block that A lies in. -/
theorem expandIntervalIsBlock : Obligations.ExpandIntervalIsBlock := by
  intro plen s t p hp ha hplen hexec
  dsimp only
  have hpos := Nat.two_pow_pos (8 * p.lenA.toNat - plen)
  have hfirst := expand_r0_toNat hp ha hplen hexec
  have hor := expand_r1_toNat hp ha hplen hexec
  have hbound := hor ▸ Nat.or_lt_two_pow (canon_lt ha.2 plen) (hostMask_lt (8 * p.lenA.toNat) plen)
  have hlast := hor.trans (canon_or_hostMask ha.2 hplen)
  have hblock (x : Nat) : x / 2 ^ (8 * p.lenA.toNat - plen) =
        p.a.toNat / 2 ^ (8 * p.lenA.toNat - plen) ↔
      t.blk.r0.toNat ≤ x ∧ x < t.blk.r0.toNat + 2 ^ (8 * p.lenA.toNat - plen) := by
    rw [hfirst]
    exact Cidr.covers_iff _ ⟨p.a.toNat, plen⟩ x
  rw [← hfirst] at hlast
  refine ⟨by omega, hbound, by omega, fun x _ => ?_⟩
  rw [hblock]
  omega

/-- Clearing the host bits twice clears them once (43_expand.md R167). -/
theorem canon_canon (a W plen : Nat) : canon (canon a W plen) W plen = canon a W plen := by
  rw [canon, canon, Nat.and_assoc, Nat.and_self]

/-- Settles O36: `canon` rounds down to a multiple of the block size, and is idempotent. -/
theorem canonIsIdempotent : Obligations.CanonIsIdempotent := by
  intro plen s t s' p p' hp ha hplen hexec
  have hr0 := canon_r0_toNat hp ha hplen hexec
  refine ⟨hr0 ▸ Nat.and_le_left, ?_, fun hp' ha' hlen => ?again⟩
  · rw [hr0, canon_eq ha.2 hplen]
    exact Nat.mul_mod_left _ _
  case again =>
    have hvalid : ValidAddr p'.a p'.lenA := by
      rw [ha', hlen]
      exact ⟨ha.1, hr0 ▸ canon_lt ha.2 plen⟩
    have hexec' := exec_of_effect_ok hp' (canonEffect_ok hvalid (hlen ▸ hplen))
    refine ⟨_, hexec', BitVec.eq_of_toNat_eq ?_, rfl⟩
    rw [canon_r0_toNat hp' hvalid (hlen ▸ hplen) hexec', ha', hlen, hr0, canon_canon]

/-! ### The two measures of alignment -/

/-- A power of two up to `2^W` divides `c + 1` exactly when it divides the complement of `c`, which is
`2^W - (c + 1)` (44_decompose.md R186). -/
theorem trailingZeros_complement {c W : Nat} (hc : c < 2 ^ W) :
    trailingZeros (2 ^ W - 1 - c) W = trailingOnes c W := by
  obtain ⟨hones, hdvdOnes⟩ := trailingOnes_spec c W
  obtain ⟨hzeros, hdvdZeros⟩ := trailingZeros_spec (by omega : 2 ^ W - 1 - c < 2 ^ W)
  have hsum : (2 ^ W - 1 - c) + (c + 1) = 2 ^ W := by omega
  have hiff {j : Nat} (hj : j ≤ W) : 2 ^ j ∣ 2 ^ W - 1 - c ↔ 2 ^ j ∣ c + 1 := by
    have hdvd : 2 ^ j ∣ (2 ^ W - 1 - c) + (c + 1) := by
      rw [hsum]
      exact Nat.pow_dvd_pow 2 hj
    exact ⟨fun h => (Nat.dvd_add_right h).1 hdvd, fun h => (Nat.dvd_add_left h).1 hdvd⟩
  apply Nat.le_antisymm
  · exact (hdvdOnes _ hzeros).1 ((hiff hzeros).1 ((hdvdZeros _ hzeros).2 le_rfl))
  · exact (hdvdZeros _ hones).1 ((hiff hones).2 ((hdvdOnes _ hones).2 le_rfl))

/-- Settles O37: both commands write the same measure. -/
theorem alignmentsAreDual : Obligations.AlignmentsAreDual := by
  intro n m s s' p p' hp hp' ha hlen ha'
  have hpos := Nat.two_pow_pos (8 * p.lenA.toNat)
  have hvalid : ValidAddr p'.a p'.lenA := by
    rw [ValidAddr, hlen, ha']
    exact ⟨ha.1, by omega⟩
  have hmeasure := trailingZeros_complement ha.2
  rw [← ha', ← hlen] at hmeasure
  refine ⟨_, _, exec_of_effect_ok (i := .alignEnd n) hp (alignEndEffect_ok ha),
    exec_of_effect_ok (i := .alignStart m) hp' (alignStartEffect_ok hvalid), rfl, rfl, ?_⟩
  exact congrArg (BitVec.ofNat 8) (hlen ▸ hmeasure.symm)

/-! ### The errors of DECOMPOSE -/

/-- Settles O24: DECOMPOSE begins with the checks of both operands and of their order. -/
theorem decomposeRejects : Obligations.DecomposeRejects := by
  refine ⟨hasOpcode_of_fields (fun _ => rfl) fun _ => rfl, fun plen => ?_⟩
  refine ⟨?rejects, fun s p hp hpair hba => ?reversed⟩
  case rejects => exact rejectsBadPair_of_twoOperands fun _ => rfl
  case reversed => exact exec_of_reversedRange rfl hpair hp hba

end Sys2Proof.Machine
end

section
/-! PROOFS. The shape of DECOMPOSE's list: how many prefixes it has, and how their sizes rise and fall
(spec/44_decompose.md R188, R189). -/

namespace Sys2Proof.Machine

/-! ### The block sizes -/

/-- The host-bit counts of a list of prefixes (44_decompose.md R188). -/
def hostBits (W : Nat) (l : List Cidr) : List Nat := l.map fun c => W - c.bits

@[simp] theorem hostBits_nil (W : Nat) : hostBits W [] = [] := rfl

/-- A prefix the loop writes has as many host bits as it chose. -/
theorem hostBits_cons {W n : Nat} (hn : n ≤ W) (a : Nat) (l : List Cidr) :
    hostBits W (⟨a, W - n⟩ :: l) = n :: hostBits W l := by
  rw [hostBits, List.map_cons, Nat.sub_sub_self hn]
  rfl

section sizes
variable {W e : Nat} (he : e < 2 ^ W)
include he

/-- In the falling phase every block is smaller than the one before it, since less than that one's size
remains (44_decompose.md R188). -/
theorem hostBits_falling (fuel : Nat) : ∀ {cur : Nat}, cur ≤ e →
    e + 1 - cur < 2 ^ trailingZeros cur W →
    (hostBits W (decomposeLoop W e fuel cur)).Pairwise (· > ·) ∧
      ∀ h ∈ hostBits W (decomposeLoop W e fuel cur), h ≤ upBits W cur e := by
  induction fuel with
  | zero => exact fun _ _ => ⟨List.Pairwise.nil, nofun⟩
  | succ fuel ih =>
    intro cur hcur hfall
    have hblock := lt_two_pow_upBits_succ he hcur hfall
    obtain ⟨-, hle, -, -, -⟩ := upBits_spec (hcur.trans_lt he) hcur
    rcases decomposeLoop_turn he hcur fuel with ⟨-, hlist⟩ | ⟨hnext, hlist⟩ <;>
      rw [hlist, hostBits_cons hle, List.forall_mem_cons]
    case inl => exact ⟨List.pairwise_singleton _ _, le_rfl, nofun⟩
    case inr =>
      rw [pow_succ] at hblock
      have hz := Nat.pow_le_pow_right Nat.two_pos (upBits_le_trailingZeros_next he hcur hnext)
      obtain ⟨hpairwise, hbound⟩ := ih hnext (by omega)
      obtain ⟨-, -, -, hfit, -⟩ := upBits_spec (hnext.trans_lt he) hnext
      have hsmaller : upBits W (cur + 2 ^ upBits W cur e) e < upBits W cur e :=
        (Nat.pow_lt_pow_iff_right one_lt_two).1 (by omega)
      exact ⟨List.pairwise_cons.2 ⟨fun h hh => (hbound h hh).trans_lt hsmaller, hpairwise⟩, le_rfl,
        fun h hh => (hbound h hh).trans hsmaller.le⟩

/-- The sizes are the alignments of the addresses, which rise, up to the first block that is cut short,
where the falling phase begins (44_decompose.md R188). -/
theorem hostBits_unimodal (fuel : Nat) : ∀ {cur : Nat}, cur ≤ e →
    ∃ up down : List Nat, hostBits W (decomposeLoop W e fuel cur) = up ++ down ∧
      up.Pairwise (· < ·) ∧ down.Pairwise (· > ·) ∧ ∀ h ∈ up, trailingZeros cur W ≤ h := by
  induction fuel with
  | zero => exact fun _ => ⟨[], [], rfl, .nil, .nil, nofun⟩
  | succ fuel ih =>
    intro cur hcur
    obtain ⟨hz, hle, -, -, -⟩ := upBits_spec (hcur.trans_lt he) hcur
    rcases hz.lt_or_eq with hcut | hfull
    case inl =>
      have hfalling := hostBits_falling he (fuel + 1) hcur (falling_of_upBits_lt he hcur hcut)
      exact ⟨[], _, rfl, .nil, hfalling.1, nofun⟩
    case inr =>
      rcases decomposeLoop_turn he hcur fuel with ⟨-, hlist⟩ | ⟨hnext, hlist⟩ <;>
        rw [hlist, hostBits_cons hle]
      case inl =>
        exact ⟨[upBits W cur e], [], rfl, List.pairwise_singleton _ _, .nil,
          List.forall_mem_singleton.2 hfull.ge⟩
      case inr =>
        have hrise := trailingZeros_lt_next he hcur hfull hnext
        obtain ⟨up, down, happend, hup, hdown, hbound⟩ := ih hnext
        refine ⟨upBits W cur e :: up, down, congrArg _ happend,
          List.pairwise_cons.2 ⟨fun h hh => ?_, hup⟩, hdown,
          List.forall_mem_cons.2 ⟨hfull.ge, fun h hh => hrise.le.trans (hbound h hh)⟩⟩
        exact hfull ▸ hrise.trans_le (hbound h hh)

end sizes

/-- Settles O29: the rising phase of the loop is the list `up`, the falling phase the list `down`. -/
theorem decomposeSizesAreUnimodal : Obligations.DecomposeSizesAreUnimodal := by
  intro plen s t p hp hpair hab hexec
  obtain rfl := Host.Outcome.next.inj ((exec_decompose hpair hab hp plen).symm.trans hexec)
  rw [afterDecompose_decomposition hpair hab]
  obtain ⟨up, down, happend, hup, hdown, -⟩ :=
    hostBits_unimodal (toNat_lt_of_validPair hpair).2 _ hab
  exact ⟨up, down, happend, hup, hdown⟩

/-! ### The longest list -/

/-- The size the loop chooses, from its two ends: the block fits, and its double does not. -/
theorem upBits_eq {W cur e n : Nat} (hcur : cur < 2 ^ W) (he : cur ≤ e) (hn : n ≤ W)
    (hdvd : 2 ^ n ∣ cur) (hfit : cur + 2 ^ n ≤ e + 1)
    (hmax : 2 ^ (n + 1) ∣ cur → e + 1 < cur + 2 ^ (n + 1)) : upBits W cur e = n := by
  obtain ⟨-, -, hdvd', hfit', hmax'⟩ := upBits_spec hcur he
  rcases (hmax' n hn hdvd hfit).eq_or_lt with heq | hlt
  case inl => exact heq.symm
  case inr =>
    have hpow := Nat.pow_le_pow_right Nat.two_pos hlt
    have hlarge := hmax ((Nat.pow_dvd_pow 2 hlt).trans hdvd')
    rw [Nat.succ_eq_add_one] at hpow
    omega

/-- Up to `2^W - 2` from `2^W - 2^(n+1)` the loop halves what remains, `n + 1` times
(44_decompose.md R189). -/
theorem decomposeLoop_length_top {W n : Nat} (hn : n + 1 ≤ W) : ∀ {fuel : Nat}, n + 1 ≤ fuel →
    (decomposeLoop W (2 ^ W - 2) fuel (2 ^ W - 2 ^ (n + 1))).length = n + 1 := by
  induction n with
  | zero =>
    rintro (_ | fuel) hfuel
    case zero => exact absurd hfuel (Nat.not_succ_le_zero _)
    have hW := Nat.two_pow_pos W
    rcases decomposeLoop_turn (W := W) (e := 2 ^ W - 2) (by omega) le_rfl fuel with
      ⟨-, hlist⟩ | ⟨hnext, -⟩
    · exact congrArg List.length hlist
    · exact absurd hnext (Nat.not_le.2 (Nat.lt_add_of_pos_right (Nat.two_pow_pos _)))
  | succ n ih =>
    rintro (_ | fuel) hfuel
    case zero => exact absurd hfuel (Nat.not_succ_le_zero _)
    have hW := Nat.pow_le_pow_right Nat.two_pos hn
    have hpos := Nat.two_pow_pos n
    have hsucc := pow_succ 2 n
    have hsucc' := pow_succ 2 (n + 1)
    have hdvd : 2 ^ (n + 1) ∣ 2 ^ W - 2 ^ (n + 1 + 1) :=
      Nat.dvd_sub (Nat.pow_dvd_pow 2 (by omega)) (Nat.pow_dvd_pow 2 (Nat.le_succ _))
    have hsize : upBits W (2 ^ W - 2 ^ (n + 1 + 1)) (2 ^ W - 2) = n + 1 :=
      upBits_eq (by omega) (by omega) (by omega) hdvd (by omega) fun _ => by omega
    rcases decomposeLoop_turn (W := W) (e := 2 ^ W - 2) (cur := 2 ^ W - 2 ^ (n + 1 + 1)) (by omega)
      (by omega) fuel with ⟨hlast, -⟩ | ⟨-, hlist⟩
    case inl =>
      rw [hsize] at hlast
      omega
    case inr =>
      have hnext : 2 ^ W - 2 ^ (n + 1 + 1) + 2 ^ (n + 1) = 2 ^ W - 2 ^ (n + 1) := by omega
      rw [hlist, hsize, hnext, List.length_cons, ih (by omega) (Nat.le_of_succ_le_succ hfuel)]

/-- Up to `2^W - 2` from `2^k` the loop doubles the block until half the space is reached
(44_decompose.md R189). -/
theorem decomposeLoop_length_bottom {n j : Nat} : ∀ {fuel k : Nat}, k + j = n + 1 →
    j + (n + 1) ≤ fuel →
    (decomposeLoop (n + 2) (2 ^ (n + 2) - 2) fuel (2 ^ k)).length = j + (n + 1) := by
  have hsucc : 2 ^ (n + 2) = 2 ^ (n + 1) * 2 := pow_succ 2 (n + 1)
  induction j with
  | zero =>
    rintro fuel k rfl hfuel
    have hhalf : 2 ^ (n + 1) = 2 ^ (n + 2) - 2 ^ (n + 1) := by omega
    rw [Nat.add_zero, hhalf, decomposeLoop_length_top (by omega) (by omega), Nat.zero_add]
  | succ j ih =>
    rintro (_ | fuel) k hk hfuel
    case zero => exact absurd hfuel (by omega)
    have hk' := Nat.pow_le_pow_right Nat.two_pos (by omega : k + 1 ≤ n + 1)
    have hpos := Nat.two_pow_pos k
    have hdouble := pow_succ 2 k
    have hodd : ¬ 2 ^ (k + 1) ∣ 2 ^ k := fun h => by
      have := Nat.le_of_dvd hpos h
      omega
    have hsize : upBits (n + 2) (2 ^ k) (2 ^ (n + 2) - 2) = k :=
      upBits_eq (by omega) (by omega) (by omega) dvd_rfl (by omega) fun h => absurd h hodd
    rcases decomposeLoop_turn (W := n + 2) (e := 2 ^ (n + 2) - 2) (cur := 2 ^ k) (by omega)
      (by omega) fuel with ⟨hlast, -⟩ | ⟨-, hlist⟩
    case inl =>
      rw [hsize] at hlast
      omega
    case inr =>
      have hnext : 2 ^ k + 2 ^ k = 2 ^ (k + 1) := by omega
      rw [hlist, hsize, hnext, List.length_cons, ih (by omega) (by omega)]
      omega

/-- The range `[1, 2^W - 2]` needs two prefixes of each size below half the space
(44_decompose.md R189). -/
theorem decompose_length_longest {W : Nat} (hW : 2 ≤ W) :
    (decompose W 1 (2 ^ W - 2)).length = 2 * W - 2 := by
  obtain ⟨n, rfl⟩ := Nat.exists_eq_add_of_le' hW
  have hlength := decomposeLoop_length_bottom (n := n) (j := n + 1) (k := 0)
    (fuel := 2 * (n + 2) + 1) (Nat.zero_add _) (by omega)
  rw [pow_zero] at hlength
  rw [decompose, hlength]
  omega

/-- A tiling of a range is not empty. -/
theorem Tiles.length_pos {W s t : Nat} {l : List Cidr} (h : Tiles W s l t) (hst : s < t) :
    0 < l.length := by
  cases l with
  | nil => exact absurd h hst.ne
  | cons => exact Nat.succ_pos _

/-- Settles O28: COUNT is the length of the loop's list. -/
theorem decomposeCountIsBounded : Obligations.DecomposeCountIsBounded := by
  intro plen s t p hp hpair hab hexec
  obtain rfl := Host.Outcome.next.inj ((exec_decompose hpair hab hp plen).symm.trans hexec)
  have hwidth := width_legal (lenA_legal_of_validPair hpair)
  rw [afterDecompose_count_toNat hpair hab]
  refine ⟨(Pending.prefixes_tile hpair hab).length_pos (Nat.lt_succ_of_le hab), ?_, fun ha hb => ?_⟩
  · exact decompose_length_le (by omega) hab (toNat_lt_of_validPair hpair).2
  · rw [Pending.prefixes, ha, hb, decompose_length_longest (by omega)]

end Sys2Proof.Machine
end

section
/-! PROOFS. The decomposition as the list of the maximal aligned blocks, the only shortest tiling, and the
list the host's loops of STEP_UP and STEP_DOWN give (spec/44_decompose.md R182, R184, R202, R206). -/

namespace Sys2Proof.Machine

variable {W : Nat}

/-! ### Tilings -/

/-- A tiling in two parts is a tiling of each of two ranges that meet. -/
theorem Tiles.append_iff {t : Nat} {l₂ : List Cidr} : ∀ {s : Nat} {l₁ : List Cidr},
    Tiles W s (l₁ ++ l₂) t ↔ ∃ m, Tiles W s l₁ m ∧ Tiles W m l₂ t
  | s, [] => ⟨fun h => ⟨s, rfl, h⟩, fun ⟨_, hm, h⟩ => hm ▸ h⟩
  | s, c :: l₁ => by
    simp only [List.cons_append, Tiles, Tiles.append_iff (l₁ := l₁)]
    tauto

/-- The one prefix of a tiling of a range of size `2^n`. -/
theorem Tiles.singleton_iff {s n : Nat} {c : Cidr} (hn : n ≤ W) :
    Tiles W s [c] (s + 2 ^ n) ↔ 2 ^ n ∣ s ∧ c = ⟨s, W - n⟩ := by
  obtain ⟨a, bits⟩ := c
  simp only [Tiles, Cidr.mk.injEq]
  constructor
  case mp =>
    rintro ⟨rfl, hbits, hdvd, hsize⟩
    have hexp : W - bits = n := Nat.pow_right_injective le_rfl (Nat.add_left_cancel hsize)
    exact ⟨hexp ▸ hdvd, rfl, by omega⟩
  case mpr =>
    rintro ⟨hdvd, rfl, rfl⟩
    rw [Nat.sub_sub_self hn]
    exact ⟨rfl, Nat.sub_le W n, hdvd, rfl⟩

/-- The prefixes of a tiling are aligned blocks inside its range (44_decompose.md R181). -/
theorem Tiles.mem_aligned {t : Nat} : ∀ {s : Nat} {l : List Cidr}, Tiles W s l t → ∀ c ∈ l,
    c.bits ≤ W ∧ 2 ^ (W - c.bits) ∣ c.addr ∧ s ≤ c.addr ∧ c.addr + 2 ^ (W - c.bits) ≤ t
  | _, [], _ => nofun
  | s, d :: l, ⟨haddr, hbits, hdvd, hrest⟩ => by
    have hpos := Nat.two_pow_pos (W - d.bits)
    have hend := hrest.addr_lt.1
    refine List.forall_mem_cons.2 ⟨⟨hbits, haddr ▸ hdvd, haddr.ge, haddr ▸ hend⟩, fun c hc => ?_⟩
    obtain ⟨hbits', hdvd', hstart, hfit⟩ := hrest.mem_aligned c hc
    exact ⟨hbits', hdvd', by omega, hfit⟩

/-- The first address of a canonical prefix is its ADDR (00_scope.md R14). -/
theorem Cidr.first_eq_addr {c : Cidr} (h : 2 ^ (W - c.bits) ∣ c.addr) : c.first W = c.addr :=
  Nat.div_mul_cancel h

/-- The blocks of a tiling are together exactly its range. -/
theorem Tiles.covers_iff {t x : Nat} : ∀ {s : Nat} {l : List Cidr}, Tiles W s l t →
    ((∃ c ∈ l, c.Covers W x) ↔ s ≤ x ∧ x < t)
  | s, [], h => by
    have hst : s = t := h
    simp only [List.not_mem_nil, false_and, exists_false, false_iff]
    omega
  | s, c :: l, ⟨haddr, _, hdvd, hrest⟩ => by
    have hend := hrest.addr_lt.1
    have hpos := Nat.two_pow_pos (W - c.bits)
    subst haddr
    rw [List.exists_mem_cons_iff, hrest.covers_iff, Cidr.covers_iff, Cidr.first_eq_addr hdvd]
    omega

theorem Tiles.isCover {s e : Nat} {l : List Cidr} (h : Tiles W s l (e + 1)) : IsCover W l s e :=
  fun _ => h.covers_iff.trans (and_congr_right fun _ => Nat.lt_succ_iff)

/-- A tiling splits at every address that none of its blocks lies across. -/
theorem Tiles.split {t x : Nat} (hx : x ≤ t) : ∀ {s : Nat} {l : List Cidr}, Tiles W s l t → s ≤ x →
    (∀ c ∈ l, c.addr < x → c.addr + 2 ^ (W - c.bits) ≤ x) →
    ∃ l₁ l₂, l = l₁ ++ l₂ ∧ Tiles W s l₁ x ∧ Tiles W x l₂ t
  | s, [], h, hs, _ => by
    have hst : s = t := h
    obtain rfl : s = x := by omega
    exact ⟨[], [], rfl, rfl, h⟩
  | s, c :: l, h, hs, hcut => by
    rcases hs.eq_or_lt with rfl | hlt
    case inl => exact ⟨[], c :: l, rfl, rfl, h⟩
    case inr =>
      obtain ⟨haddr, hbits, hdvd, hrest⟩ := h
      obtain ⟨hhead, htail⟩ := List.forall_mem_cons.1 hcut
      rw [haddr] at hhead
      obtain ⟨l₁, l₂, rfl, h₁, h₂⟩ := hrest.split hx (hhead hlt) htail
      exact ⟨c :: l₁, l₂, rfl, ⟨haddr, hbits, hdvd, h₁⟩, h₂⟩

/-! ### The only shortest tiling -/

section unique
variable {e : Nat} (he : e < 2 ^ W)
include he

/-- A tiling that is no longer than the loop's list is that list: it splits after the loop's first
block, and has room for one prefix before the cut only (44_decompose.md R182). -/
theorem Tiles.eq_decomposeLoop (fuel : Nat) : ∀ {cur : Nat} {l : List Cidr}, cur ≤ e →
    Tiles W cur l (e + 1) → l.length ≤ (decomposeLoop W e fuel cur).length →
    l = decomposeLoop W e fuel cur := by
  induction fuel with
  | zero => exact fun _ _ hlen => List.eq_nil_of_length_eq_zero (Nat.le_zero.1 hlen)
  | succ fuel ih =>
    intro cur l hcur htiles hlen
    obtain ⟨-, hle, -, hfit, -⟩ := upBits_spec (hcur.trans_lt he) hcur
    have hpos := Nat.two_pow_pos (upBits W cur e)
    have hcut : ∀ c ∈ l, c.addr < cur + 2 ^ upBits W cur e →
        c.addr + 2 ^ (W - c.bits) ≤ cur + 2 ^ upBits W cur e := by
      intro c hc hmeet
      obtain ⟨-, hdvd, hstart, hend⟩ := htiles.mem_aligned c hc
      rw [← Nat.div_mul_cancel hdvd] at hstart hend hmeet ⊢
      exact alignedBlock_le_upBits he hcur (Nat.sub_le W c.bits) hstart hend hmeet
    obtain ⟨l₁, l₂, rfl, h₁, h₂⟩ := htiles.split hfit (Nat.le_add_right _ _) hcut
    have hfirst := h₁.length_pos (by omega)
    have hone (h : l₁.length ≤ 1) : l₁ = [⟨cur, W - upBits W cur e⟩] := by
      obtain ⟨c, rfl⟩ := List.length_eq_one_iff.1 (h.antisymm hfirst)
      rw [((Tiles.singleton_iff hle).1 h₁).2]
    rw [List.length_append] at hlen
    rcases decomposeLoop_turn he hcur fuel with ⟨-, hlist⟩ | ⟨hnext, hlist⟩ <;>
      rw [hlist, List.length_cons] at hlen <;> rw [hlist]
    case inl =>
      rw [List.length_nil] at hlen
      rw [hone (by omega), List.eq_nil_of_length_eq_zero (l := l₂) (by omega), List.append_nil]
    case inr =>
      have hrest := h₂.isCover.decomposeLoop_length_le he fuel hnext
      rw [hone (by omega), ih hnext h₂ (by omega), List.singleton_append]

theorem Tiles.eq_decompose {s : Nat} {l : List Cidr} (hse : s ≤ e) (htiles : Tiles W s l (e + 1))
    (hlen : l.length ≤ (decompose W s e).length) : l = decompose W s e :=
  Tiles.eq_decomposeLoop he _ hse htiles hlen

/-- No tiling of a range is shorter than its decomposition (44_decompose.md R181). -/
theorem Tiles.length_decompose_le {s : Nat} {l : List Cidr} (hse : s ≤ e)
    (htiles : Tiles W s l (e + 1)) : (decompose W s e).length ≤ l.length :=
  htiles.isCover.decomposeLoop_length_le he _ hse

end unique

/-! ### The maximal aligned blocks -/

/-- The prefix is an aligned block of `[s, e]`, and no larger aligned block of `[s, e]` holds it
(44_decompose.md R182). -/
def Cidr.IsMaximal (W s e : Nat) (c : Cidr) : Prop :=
  c.bits ≤ W ∧ 2 ^ (W - c.bits) ∣ c.addr ∧ s ≤ c.addr ∧ c.addr + 2 ^ (W - c.bits) ≤ e + 1 ∧
    ∀ n ≤ W, W - c.bits < n →
      ¬ (s ≤ c.addr / 2 ^ n * 2 ^ n ∧ c.addr / 2 ^ n * 2 ^ n + 2 ^ n ≤ e + 1)

/-- No aligned block of `[s, e]` lies across the address `x`. -/
def IsCut (W s e x : Nat) : Prop :=
  ∀ n ≤ W, ∀ q, s ≤ q * 2 ^ n → q * 2 ^ n + 2 ^ n ≤ e + 1 → q * 2 ^ n < x → q * 2 ^ n + 2 ^ n ≤ x

section maximal
variable {s e : Nat}

theorem isCut_start : IsCut W s e s := fun _ _ _ hstart _ hlt => absurd hlt (Nat.not_lt.2 hstart)

section loop
variable {cur : Nat} (he : e < 2 ^ W) (hcur : cur ≤ e) (hcut : IsCut W s e cur)
include he hcur hcut

theorem IsCut.next : IsCut W s e (cur + 2 ^ upBits W cur e) := by
  intro n hn q hstart hend hlt
  rcases Nat.lt_or_ge (q * 2 ^ n) cur with hbefore | hfrom
  case inl => exact (hcut n hn q hstart hend hbefore).trans (Nat.le_add_right _ _)
  case inr => exact alignedBlock_le_upBits he hcur hn hfrom hend hlt

/-- The loop's block at a cut is maximal: a larger one that holds it would begin before the cut and lie
across it, or begin at the cut and be the loop's choice. -/
theorem IsCut.isMaximal (hs : s ≤ cur) : Cidr.IsMaximal W s e ⟨cur, W - upBits W cur e⟩ := by
  obtain ⟨-, hle, hdvd, hfit, hmax⟩ := upBits_spec (hcur.trans_lt he) hcur
  simp only [Cidr.IsMaximal, Nat.sub_sub_self hle]
  refine ⟨Nat.sub_le _ _, hdvd, hs, hfit, fun n hn hlarger ⟨hstart, hend⟩ => ?_⟩
  rcases (Nat.div_mul_le_self cur (2 ^ n)).lt_or_eq with hbefore | hat
  case inl =>
    have hinside := Nat.lt_div_mul_add (a := cur) (Nat.two_pow_pos n)
    exact absurd (hcut n hn _ hstart hend hbefore) (Nat.not_le.2 hinside)
  case inr =>
    rw [hat] at hend
    exact absurd (hmax n hn (Dvd.intro_left _ hat) hend) (Nat.not_le.2 hlarger)

end loop

/-- Every prefix the loop writes is maximal in the whole range. -/
theorem decomposeLoop_isMaximal (he : e < 2 ^ W) (fuel : Nat) : ∀ {cur : Nat}, s ≤ cur → cur ≤ e →
    IsCut W s e cur → ∀ c ∈ decomposeLoop W e fuel cur, c.IsMaximal W s e := by
  induction fuel with
  | zero => exact fun _ _ _ => nofun
  | succ fuel ih =>
    intro cur hs hcur hcut
    have hhead := hcut.isMaximal he hcur hs
    rcases decomposeLoop_turn he hcur fuel with ⟨-, hlist⟩ | ⟨hnext, hlist⟩ <;>
      rw [hlist, List.forall_mem_cons]
    case inl => exact ⟨hhead, nofun⟩
    case inr => exact ⟨hhead, ih (hs.trans (Nat.le_add_right _ _)) hnext (hcut.next he hcur)⟩

/-- Numbers that agree above bit `m` agree above every higher bit. -/
theorem div_two_pow_congr {x y m n : Nat} (h : x / 2 ^ m = y / 2 ^ m) (hmn : m ≤ n) :
    x / 2 ^ n = y / 2 ^ n := by
  rw [← Nat.add_sub_cancel' hmn, Nat.pow_add, ← Nat.div_div_eq_div_mul, ← Nat.div_div_eq_div_mul, h]

/-- Two maximal blocks that meet are the same: the larger would hold the smaller
(44_decompose.md R182). -/
theorem Cidr.IsMaximal.eq_of_covers {c d : Cidr} (hc : c.IsMaximal W s e) (hd : d.IsMaximal W s e)
    (hmeet : d.Covers W c.addr) : d = c := by
  obtain ⟨hbits, hdvd, hstart, hend, hmax⟩ := hc
  obtain ⟨hbits', hdvd', hstart', hend', hmax'⟩ := hd
  rw [Cidr.Covers] at hmeet
  rcases Nat.lt_trichotomy (W - c.bits) (W - d.bits) with hlt | heq | hgt
  case inl =>
    have hholds : c.addr / 2 ^ (W - d.bits) * 2 ^ (W - d.bits) = d.addr := by
      rw [hmeet, Nat.div_mul_cancel hdvd']
    exact absurd (hholds.symm ▸ ⟨hstart', hend'⟩) (hmax _ (Nat.sub_le _ _) hlt)
  case inr.inl =>
    have haddr : c.addr = d.addr := by
      rw [← Nat.div_mul_cancel hdvd, ← Nat.div_mul_cancel hdvd', heq, hmeet]
    obtain ⟨a, bits⟩ := c
    obtain ⟨a', bits'⟩ := d
    rw [Cidr.mk.injEq]
    exact ⟨haddr.symm, by dsimp only at *; omega⟩
  case inr.inr =>
    have hholds : d.addr / 2 ^ (W - c.bits) * 2 ^ (W - c.bits) = c.addr := by
      rw [← div_two_pow_congr hmeet hgt.le, Nat.div_mul_cancel hdvd]
    exact absurd (hholds.symm ▸ ⟨hstart, hend⟩) (hmax' _ (Nat.sub_le _ _) hgt)

/-- The decomposition is exactly the maximal aligned blocks of the range (44_decompose.md R182). -/
theorem mem_decompose_iff (hse : s ≤ e) (he : e < 2 ^ W) {c : Cidr} :
    c ∈ decompose W s e ↔ c.IsMaximal W s e := by
  have hmem : ∀ d ∈ decompose W s e, d.IsMaximal W s e :=
    decomposeLoop_isMaximal he _ le_rfl hse isCut_start
  refine ⟨hmem c, fun hc => ?_⟩
  have ⟨_, _, hstart, hend, _⟩ := hc
  have hpos := Nat.two_pow_pos (W - c.bits)
  obtain ⟨d, hd, hmeet⟩ := (decompose_tiles hse he).covers_iff.2 ⟨hstart, by omega⟩
  exact hc.eq_of_covers (hmem d hd) hmeet ▸ hd

end maximal

/-- Settles O27: membership is `mem_decompose_iff`, and a tiling no longer than the loop's list is that
list. -/
theorem decomposeIsUnique : Obligations.DecomposeIsUnique := by
  intro plen s t p hp hpair hab hexec
  obtain rfl := Host.Outcome.next.inj ((exec_decompose hpair hab hp plen).symm.trans hexec)
  rw [afterDecompose_decomposition hpair hab]
  obtain ⟨-, hb⟩ := toNat_lt_of_validPair hpair
  exact ⟨fun c => mem_decompose_iff hab hb, fun l => Tiles.eq_decompose hb hab⟩

/-! ### The first and the last prefix -/

section downBits
variable {s e : Nat} (hse : s ≤ e)
include hse

/-- The block of `downBits` is maximal: a larger one that holds it ends at the end of the range too, and
would be the comparator's choice (44_decompose.md R184). -/
theorem downBits_isMaximal :
    Cidr.IsMaximal W s e ⟨e + 1 - 2 ^ downBits W s e, W - downBits W s e⟩ := by
  obtain ⟨hle, hdvd, hfit, -, hmax⟩ := downBits_spec (W := W) hse
  simp only [Cidr.IsMaximal, Nat.sub_sub_self hle]
  refine ⟨Nat.sub_le _ _, Nat.dvd_sub hdvd dvd_rfl, by omega, by omega,
    fun n hn hlarger ⟨hstart, hend⟩ => ?_⟩
  set q := (e + 1 - 2 ^ downBits W s e) / 2 ^ n with hq
  have hinside : e + 1 - 2 ^ downBits W s e < q * 2 ^ n + 2 ^ n :=
    Nat.lt_div_mul_add (Nat.two_pow_pos n)
  have hpow : 2 ^ downBits W s e ∣ 2 ^ n := Nat.pow_dvd_pow 2 hlarger.le
  have hreach : e + 1 ≤ q * 2 ^ n + 2 ^ n :=
    Nat.le_of_lt_add_of_dvd (by omega) hdvd ((hpow.mul_left q).add hpow)
  have hdvd' : 2 ^ n ∣ e + 1 := by
    rw [hreach.antisymm hend]
    exact (Nat.dvd_mul_left _ q).add dvd_rfl
  exact absurd (hmax n hn hdvd' (by omega)) (Nat.not_le.2 hlarger)

/-- The block of `downBits` tiles the end of the range. -/
theorem tiles_downBits : Tiles W (e + 1 - 2 ^ downBits W s e)
    [⟨e + 1 - 2 ^ downBits W s e, W - downBits W s e⟩] (e + 1) := by
  obtain ⟨hle, hdvd, hfit, -, -⟩ := downBits_spec (W := W) hse
  have hend : e + 1 - 2 ^ downBits W s e + 2 ^ downBits W s e = e + 1 := by omega
  have htiles := (Tiles.singleton_iff hle).2 ⟨Nat.dvd_sub hdvd dvd_rfl, rfl⟩
  rwa [hend] at htiles

end downBits

section ends
variable {s e : Nat} (he : e < 2 ^ W) (hse : s ≤ e)
include he hse

/-- The block of `upBits` is the whole decomposition where it reaches the end. -/
theorem decompose_of_upBits_reaches (h : s + 2 ^ upBits W s e = e + 1) :
    decompose W s e = [⟨s, W - upBits W s e⟩] := by
  rcases decomposeLoop_turn he hse (2 * W) with ⟨-, hlist⟩ | ⟨hnext, -⟩
  · exact hlist
  · omega

/-- What the loop writes after its first block is the decomposition of what is left: it is a shortest
tiling of it (44_decompose.md R206). -/
theorem decompose_of_upBits_short (h : s + 2 ^ upBits W s e ≤ e) :
    decompose W s e = ⟨s, W - upBits W s e⟩ :: decompose W (s + 2 ^ upBits W s e) e := by
  obtain ⟨-, hle, -, -, -⟩ := upBits_spec (hse.trans_lt he) hse
  have htiles := decompose_tiles hse he
  rcases decomposeLoop_turn he hse (2 * W) with ⟨hlast, -⟩ | ⟨-, hlist⟩
  case inl => omega
  case inr =>
    rw [decompose, hlist] at htiles ⊢
    obtain ⟨-, -, -, hrest⟩ := htiles
    rw [Nat.sub_sub_self hle] at hrest
    have hshortest := (decompose_tiles h he).isCover.decomposeLoop_length_le he (2 * W) h
    rw [hrest.eq_decompose he h hshortest]

/-- The block of `downBits` is the whole decomposition where it reaches the start. -/
theorem decompose_of_downBits_reaches (h : e + 1 - 2 ^ downBits W s e = s) :
    decompose W s e = [⟨e + 1 - 2 ^ downBits W s e, W - downBits W s e⟩] := by
  have htiles := tiles_downBits (W := W) hse
  have hpos := (decompose_tiles hse he).length_pos (Nat.lt_succ_of_le hse)
  rw [h] at htiles ⊢
  exact (htiles.eq_decompose he hse hpos).symm

/-- The block of `downBits` is the last of the decomposition, and what is before it is the decomposition
up to it (44_decompose.md R184, R202). -/
theorem decompose_of_downBits_short {e' : Nat} (h : e' + 1 = e + 1 - 2 ^ downBits W s e)
    (hse' : s ≤ e') : decompose W s e =
      decompose W s e' ++ [⟨e + 1 - 2 ^ downBits W s e, W - downBits W s e⟩] := by
  have hpos := Nat.two_pow_pos (downBits W s e)
  have he' : e' < 2 ^ W := by omega
  have hlast := tiles_downBits (W := W) hse
  have htiles : Tiles W s (decompose W s e' ++
      [⟨e + 1 - 2 ^ downBits W s e, W - downBits W s e⟩]) (e + 1) :=
    Tiles.append_iff.2 ⟨_, h ▸ decompose_tiles hse' he', hlast⟩
  have hmem := (mem_decompose_iff hse he).2 (downBits_isMaximal hse)
  obtain ⟨l₁, l₂, hsplit⟩ := List.append_of_mem hmem
  have hwhole := decompose_tiles hse he
  rw [hsplit] at hwhole
  obtain ⟨m, hbefore, haddr, -⟩ := Tiles.append_iff.1 hwhole
  have hshortest := Tiles.length_decompose_le he' hse' (h.trans haddr ▸ hbefore)
  refine (htiles.eq_decompose he hse ?_).symm
  rw [hsplit, List.length_append, List.length_append, List.length_singleton, List.length_cons]
  omega

end ends

/-! ### The host's loops -/

/-- The address after one that is not the last. -/
theorem Value.toNat_add_one {v : Value} (h : v.toNat + 1 < 2 ^ 128) :
    (v + 1).toNat = v.toNat + 1 :=
  BitVec.toNat_add_of_lt h

/-- The address before one that is not the first. -/
theorem Value.toNat_sub_one_add_one {v : Value} (h : 0 < v.toNat) :
    (v - 1).toNat + 1 = v.toNat := by
  bv_omega

/-- The prefix a step leaves in R0 and RNUM. -/
def Block.stepPrefix (b : Block) : Cidr := ⟨b.r0.toNat, b.rNum.toNat⟩

section step
variable {s t : State} {p : Pending} {plen : Nat} (hp : s.blk.pending = some p)
  (hpair : ValidPair p) (hab : p.a.toNat ≤ p.b.toNat)
include hp hpair hab

/-- STEP_UP's prefix and last address as numbers (44_decompose.md R205). -/
theorem stepUp_results (h : exec (.stepUp plen) s = .next t) :
    t.blk.stepPrefix =
        ⟨p.a.toNat, 8 * p.lenA.toNat - upBits (8 * p.lenA.toNat) p.a.toNat p.b.toNat⟩ ∧
      t.blk.r1.toNat = p.a.toNat + 2 ^ upBits (8 * p.lenA.toNat) p.a.toNat p.b.toNat - 1 := by
  obtain ⟨ha, hb⟩ := toNat_lt_of_validPair hpair
  obtain ⟨-, -, -, hfit, -⟩ := upBits_spec ha hab
  have hlen := lenA_legal_of_validPair hpair
  obtain rfl := eq_afterOk_of_exec hp (stepUpEffect_ok hpair hab plen) h
  exact ⟨congrArg₂ Cidr.mk (addr_toNat hlen ha) (length_toNat hlen (Nat.sub_le _ _)),
    addr_toNat hlen (by omega)⟩

/-- STEP_DOWN's prefix as numbers (44_decompose.md R201). -/
theorem stepDown_results (h : exec (.stepDown plen) s = .next t) :
    t.blk.stepPrefix =
      ⟨p.b.toNat + 1 - 2 ^ downBits (8 * p.lenA.toNat) p.a.toNat p.b.toNat,
        8 * p.lenA.toNat - downBits (8 * p.lenA.toNat) p.a.toNat p.b.toNat⟩ := by
  obtain ⟨-, hb⟩ := toNat_lt_of_validPair hpair
  have hpos := Nat.two_pow_pos (downBits (8 * p.lenA.toNat) p.a.toNat p.b.toNat)
  have hlen := lenA_legal_of_validPair hpair
  obtain rfl := eq_afterOk_of_exec hp (stepDownEffect_ok hpair hab plen) h
  exact congrArg₂ Cidr.mk (addr_toNat hlen (by omega)) (length_toNat hlen (Nat.sub_le _ _))

end step

/-- DECOMPOSE of the range `[A, B]` of valid operands completes with its list. -/
theorem exec_decompose_decomposition {s : State} {p : Pending} (hp : s.blk.pending = some p)
    (hpair : ValidPair p) (hab : p.a.toNat ≤ p.b.toNat) (plen : Nat) :
    ∃ t, exec (.decompose plen) s = .next t ∧ t.blk.err = false ∧
      t.blk.decomposition = decompose (8 * p.lenA.toNat) p.a.toNat p.b.toNat :=
  ⟨_, exec_decompose hpair hab hp plen, rfl, afterDecompose_decomposition hpair hab s⟩

/-- Settles O31: STEP_UP's block is the loop's first, and what the loop writes after it is the
decomposition of the rest. -/
theorem stepUpLoopIsDecompose : Obligations.StepUpLoopIsDecompose := by
  intro n m k s t u p hp hpair hab hstep hdecompose
  obtain rfl := Host.Outcome.next.inj ((exec_decompose hpair hab hp m).symm.trans hdecompose)
  obtain ⟨ha, hb⟩ := toNat_lt_of_validPair hpair
  obtain ⟨-, -, -, hfit, -⟩ := upBits_spec ha hab
  obtain ⟨hprefix, hr1⟩ := stepUp_results hp hpair hab hstep
  have hpos := Nat.two_pow_pos (upBits (8 * p.lenA.toNat) p.a.toNat p.b.toNat)
  rw [← Block.stepPrefix, hprefix, afterDecompose_decomposition hpair hab, Pending.prefixes]
  refine ⟨fun hlast => ?whole, fun hmore s' hp' => ?rest⟩
  case whole =>
    rw [hlast] at hr1
    exact decompose_of_upBits_reaches hb hab (by omega)
  case rest =>
    have hshort : p.a.toNat + 2 ^ upBits (8 * p.lenA.toNat) p.a.toNat p.b.toNat ≤ p.b.toNat := by
      have hne := mt BitVec.eq_of_toNat_eq hmore
      omega
    have hnext : (t.blk.r1 + 1).toNat =
        p.a.toNat + 2 ^ upBits (8 * p.lenA.toNat) p.a.toNat p.b.toNat := by
      have hlt := p.b.isLt
      rw [Value.toNat_add_one (by omega)]
      omega
    have ⟨⟨hlen, _⟩, hvalidB, hfamily⟩ := hpair
    have hpair' : ValidPair { p with a := t.blk.r1 + 1 } :=
      ⟨⟨hlen, hnext ▸ hshort.trans_lt hb⟩, hvalidB, hfamily⟩
    obtain ⟨v, hexec, herr, hlist⟩ := exec_decompose_decomposition hp' hpair' (hnext ▸ hshort) k
    refine ⟨v, hexec, herr, ?_⟩
    rw [hlist, hnext]
    exact decompose_of_upBits_short hb hab hshort

/-- Settles O32: STEP_DOWN's block is the last of the list, and what is before it is the decomposition up
to it. -/
theorem stepDownLoopIsDecompose : Obligations.StepDownLoopIsDecompose := by
  intro n m k s t u p hp hpair hab hstep hdecompose
  obtain rfl := Host.Outcome.next.inj ((exec_decompose hpair hab hp m).symm.trans hdecompose)
  obtain ⟨-, hb⟩ := toNat_lt_of_validPair hpair
  obtain ⟨-, -, hfit, -, -⟩ := downBits_spec (W := 8 * p.lenA.toNat) hab
  have hpos := Nat.two_pow_pos (downBits (8 * p.lenA.toNat) p.a.toNat p.b.toNat)
  have hprefix := stepDown_results hp hpair hab hstep
  have hr0 : t.blk.r0.toNat = _ := congrArg Cidr.addr hprefix
  dsimp only at hr0
  rw [← Block.stepPrefix, hprefix, afterDecompose_decomposition hpair hab, Pending.prefixes]
  refine ⟨fun hfirst => ?whole, fun hmore s' hp' => ?rest⟩
  case whole => exact decompose_of_downBits_reaches hb hab (hr0.symm.trans (congrArg _ hfirst))
  case rest =>
    have hne := mt BitVec.eq_of_toNat_eq hmore
    have hprev : (t.blk.r0 - 1).toNat + 1 = t.blk.r0.toNat := Value.toNat_sub_one_add_one (by omega)
    have hab' : p.a.toNat ≤ (t.blk.r0 - 1).toNat := by omega
    have hb' : (t.blk.r0 - 1).toNat < p.b.toNat := by omega
    have ⟨hvalidA, ⟨hlenB, hltB⟩, hfamily⟩ := hpair
    have hpair' : ValidPair { p with b := t.blk.r0 - 1 } :=
      ⟨hvalidA, ⟨hlenB, hb'.trans hltB⟩, hfamily⟩
    obtain ⟨v, hexec, herr, hlist⟩ := exec_decompose_decomposition hp' hpair' hab' k
    refine ⟨v, hexec, herr, ?_⟩
    rw [hlist]
    exact decompose_of_downBits_short hb hab (hprev.trans hr0) hab'

end Sys2Proof.Machine
end
